-- ==== Sys2Proof/Word.lean ====
section
/-! DEFINITION. The word and byte types of PFB-TM (spec/00_scope.md R9, R10): the command channel carries 32-bit
words (30_encoding.md R60) and the framebuffer holds bytes (10_state.md R24). -/

namespace Sys2Proof

/-- One word of the command channel or of the response channel (30_encoding.md R60, R64). -/
abbrev Word := BitVec 32

/-- One framebuffer, payload or response byte, bit 0 the least significant (00_scope.md R9). -/
abbrev Byte := BitVec 8

/-- A pixel coordinate or a bitmap dimension: a 12-bit unsigned field (30_encoding.md R72). -/
abbrev Coord := BitVec 12

end Sys2Proof
end

