-- ==== Sys2Proof/Config.lean ====
section
/-! DEFINITION. What an instance of PFB-TM is built from (spec/00_scope.md R7), the transactions it exchanges with its
two backings (42_transport_ops.md R140), and the values the spec leaves open (00_scope.md R8): constants without a
body, so that nothing can be proved about their values. -/

namespace Sys2Proof

/-- The two backings and, at once, the two values of `cfg.TRANSPORT_KIND`: `Addressed` is 0 and is backing A, `Serial`
is 1 and is backing S (10_state.md R20, 42_transport_ops.md R141). -/
inductive Backing where
  | addressed
  | serial
deriving DecidableEq, Repr, Inhabited

/-- A request handed to a backing (42_transport_ops.md R140). -/
inductive Transaction where
  | writeRegion (page col : Byte) (bytes : List Byte)
  | setContrast (level : Byte)
  | scrollMode (selector : Byte)
deriving DecidableEq, Repr, Inhabited

/-- What a backing returns for a transaction (42_transport_ops.md R148). -/
inductive TxnOutcome where
  | ack
  | fail
deriving DecidableEq, Repr, Inhabited

/-- The construction arguments `width`, `height`, `transport_kind`, `flip` (00_scope.md R7, 70_reset_and_hazards.md R180).
Plain naturals: which of them an instance can be built from is R181, checked by `ConstructionArgs.legal`. -/
structure ConstructionArgs where
  width         : Nat
  height        : Nat
  transportKind : Nat
  flip          : Nat
deriving DecidableEq, Repr

/-- What a scroll selector may mean to the panel: "stop/continuous modes" (00_scope.md R8, SCROLL_SEL_MEANING). That the
continuous modes are told apart by a natural number is the model's choice (log entry 14). -/
inductive ScrollMeaning where
  | stop
  | continuous (mode : Nat)
deriving DecidableEq, Repr, Inhabited

namespace Config

/-- The arguments `State.reset` is constructed with. DESIGN CHOICE (unsafe for a claim about another instance; log
entry 1): the spec leaves them to the surrounding system; these are the ones 95_test_vectors.md assumes "unless a vector
says otherwise". Every statement is made over all states, so over every instance. -/
def constructionArgs : ConstructionArgs :=
  { width := 128, height := 64, transportKind := 0, flip := 0 }

/-- The outcome of the `k`-th transaction handed to a backing: a FREE VALUE, "a free draw from {Ack, Fail}, chosen by
the backing agent, with no law relating it to the transaction or to earlier outcomes" (42_transport_ops.md R148, log
entry 4). -/
opaque backingOutcome : Backing → Transaction → Nat → TxnOutcome

/-- The owner's program, an input of the model and no state of it (60_exceptions.md R169): what the owner takes for its
next command, whole, at its `k`-th turn, having read these responses, each as the words of the response channel. A FREE
VALUE (log entry 20): it may be the words of any command, or none yet, and the owner "may read responses to decide"
(30_encoding.md R77). -/
opaque ownerProgram : List (List Word) → Nat → List Word

/-- `T_BUS_TIMEOUT` (00_scope.md R8): OPEN; no rule reads its value (93_implementation_defined.md I6). -/
opaque busTimeout : Nat

/-- `DEV_ADDR` (00_scope.md R8): OPEN; read by the addressed backing only, never by PFB-TM. -/
opaque deviceAddress : Nat

/-- `SCROLL_SEL_MEANING` (00_scope.md R8): OPEN; read by the panel only, never by PFB-TM (42_transport_ops.md R146). No
rule says that each of the 256 selectors means one of the two, so a selector may have no meaning: none. -/
opaque scrollSelectorMeaning : Byte → Option ScrollMeaning

end Config

end Sys2Proof
end

