-- ==== Sys2Proof/Syntax.lean ====
section
/-! DEFINITION. The ten commands of PFB-TM, one constructor per row of spec/opcode_table.json (30_encoding.md R71), with
the operands each command's rule gives it. A payload is part of the command (30_encoding.md R60). -/

namespace Sys2Proof

/-- A command. Field widths are those of the formats (30_encoding.md R65 to R70); a payload is the byte list
`d[0 .. n-1]` of R63, whose length `Instr.wf` checks. -/
inductive Instr where
  /-- FB_GET_PAGE (41_framebuffer_ops.md R110). -/
  | fbGetPage (page : Byte)
  /-- FB_SET_PAGE (R111). -/
  | fbSetPage (page : Byte) (payload : List Byte)
  /-- FB_GET_PIXEL (R112). -/
  | fbGetPixel (x y : Coord) (inv : Bool)
  /-- FB_SET_PIXEL (R113). -/
  | fbSetPixel (x y : Coord) (val inv : Bool)
  /-- FB_BLIT (R114). -/
  | fbBlit (xpos ypos width height : Coord) (inv : Bool) (payload : List Byte)
  /-- FB_GET_BUFFER (R115). -/
  | fbGetBuffer
  /-- FB_SET_BUFFER (R116). -/
  | fbSetBuffer (payload : List Byte)
  /-- TM_PUSH (42_transport_ops.md R143). -/
  | tmPush (page col count : Byte)
  /-- TM_SET_CONTRAST (R145). -/
  | tmSetContrast (level : Byte)
  /-- TM_SET_SCROLL_MODE (R146). -/
  | tmSetScrollMode (selector : Byte)
deriving DecidableEq, Repr

/-- The payload of a command; empty where its format has none (30_encoding.md R61). -/
def Instr.payload : Instr → List Byte
  | .fbSetPage _ payload => payload
  | .fbBlit _ _ _ _ _ payload => payload
  | .fbSetBuffer payload => payload
  | .fbGetPage _ | .fbGetPixel _ _ _ | .fbSetPixel _ _ _ _ | .fbGetBuffer => []
  | .tmPush _ _ _ | .tmSetContrast _ | .tmSetScrollMode _ => []

end Sys2Proof
end

