-- ==== Sys2Proof/Decode.lean ====
section
/-! DEFINITION. From channel words to commands and back (spec/30_encoding.md): the opcode map, the command lengths, the
packing of payload bytes, a decoder that is total on any list of words and names what it rejects, and the encoder
written from the same format tables. -/

namespace Sys2Proof

/-! ## Packing (R63) -/

/-- The number of words that carry `n` bytes: `ceil4(n) = (n + 3) div 4` (R61). -/
def ceil4 (n : Nat) : Nat := (n + 3) / 4

/-- Four bytes in one word, least significant byte first (R63). -/
def wordOfBytes (b0 b1 b2 b3 : Byte) : Word := b3 ++ b2 ++ b1 ++ b0

/-- The four bytes of a word, least significant byte first (R63). -/
def wordBytes (w : Word) : List Byte :=
  [w.extractLsb' 0 8, w.extractLsb' 8 8, w.extractLsb' 16 8, w.extractLsb' 24 8]

/-- A byte list as channel words; the unused high bytes of the last word are sent as zero (R63). -/
def packBytes : List Byte → List Word
  | [] => []
  | [a] => [wordOfBytes a 0 0 0]
  | [a, b] => [wordOfBytes a b 0 0]
  | [a, b, c] => [wordOfBytes a b c 0]
  | a :: b :: c :: d :: rest => wordOfBytes a b c d :: packBytes rest

/-- The first `n` bytes that words carry; what is left of the last word is ignored on receipt (R63). -/
def unpackBytes (n : Nat) (ws : List Word) : List Byte :=
  ((ws.take (ceil4 n)).flatMap wordBytes).take n

/-! ## The opcode map (R62, R71) -/

/-- The operations an opcode can select (R71). -/
inductive Opcode where
  | fbGetPage | fbSetPage | fbGetPixel | fbSetPixel | fbBlit
  | fbGetBuffer | fbSetBuffer | tmPush | tmSetContrast | tmSetScrollMode
deriving DecidableEq, Repr

/-- The opcode's number, bits [31:28] of the first header word (R62, R71). -/
def Opcode.number : Opcode → BitVec 4
  | .fbGetPage => 0x1
  | .fbSetPage => 0x2
  | .fbGetPixel => 0x3
  | .fbSetPixel => 0x4
  | .fbBlit => 0x5
  | .fbGetBuffer => 0x6
  | .fbSetBuffer => 0x7
  | .tmPush => 0x8
  | .tmSetContrast => 0x9
  | .tmSetScrollMode => 0xA

/-- The operation a first header word selects; none for the reserved opcodes 0x0 and 0xB..0xF (R71, R73). -/
def opcodeOf (w : Word) : Option Opcode :=
  match (w.extractLsb' 28 4).toNat with
  | 0x1 => some .fbGetPage
  | 0x2 => some .fbSetPage
  | 0x3 => some .fbGetPixel
  | 0x4 => some .fbSetPixel
  | 0x5 => some .fbBlit
  | 0x6 => some .fbGetBuffer
  | 0x7 => some .fbSetBuffer
  | 0x8 => some .tmPush
  | 0x9 => some .tmSetContrast
  | 0xA => some .tmSetScrollMode
  | _ => none

/-- The reserved bits of the first header word, every bit marked 0 in the format's table (R65 to R70): the mask of R71
less the opcode field. -/
def Opcode.reservedMask : Opcode → Word
  | .fbGetPage => 0x0FFFFF00
  | .fbSetPage => 0x0FFFFF00
  | .fbGetPixel => 0x07000000
  | .fbSetPixel => 0x03000000
  | .fbBlit => 0x07000000
  | .fbGetBuffer => 0x0FFFFFFF
  | .fbSetBuffer => 0x0FFFFFFF
  | .tmPush => 0x0F000000
  | .tmSetContrast => 0x0FFFFF00
  | .tmSetScrollMode => 0x0FFFFF00

/-- The reserved bits of the second header word, which only format B has (R67). -/
def Opcode.secondReservedMask : Opcode → Word
  | .fbBlit => 0xFF000000
  | _ => 0

/-! ## Lengths (R61, R76) -/

/-- Header words of a command (R61). -/
def Opcode.headerWords : Opcode → Nat
  | .fbBlit => 2
  | _ => 1

/-- PAYLOAD_BYTES of a blit: `((width + 7) div 8) * height`, whether or not the width is a multiple of 8 (R61). -/
def blitPayloadBytes (width height : Coord) : Nat := (width.toNat + 7) / 8 * height.toNat

/-- The `width` and `height` fields of a blit's second header word (R67). -/
def blitWidth (w1 : Word) : Coord := w1.extractLsb' 0 12

/-- See `blitWidth`. -/
def blitHeight (w1 : Word) : Coord := w1.extractLsb' 12 12

/-- PAYLOAD_BYTES of a command with opcode `op` and second header word `w1`, on an instance of `pages` pages (R61). -/
def Opcode.payloadBytes (pages : Nat) (w1 : Word) : Opcode → Nat
  | .fbSetPage => 128
  | .fbBlit => blitPayloadBytes (blitWidth w1) (blitHeight w1)
  | .fbSetBuffer => pages * 128
  | _ => 0

/-- A command's length in words (R61). -/
def Opcode.commandLength (pages : Nat) (w1 : Word) (op : Opcode) : Nat :=
  op.headerWords + ceil4 (op.payloadBytes pages w1)

/-! ## The decoder (R76) -/

/-- Why a command is illegal (R73, R74). -/
inductive IllegalReason where
  | reservedOpcode
  | reservedBit
deriving DecidableEq, Repr

/-- What the decoder finds at the head of the command stream. -/
inductive Decoded where
  /-- A command, and its length in words. -/
  | command (i : Instr) (length : Nat)
  /-- A reserved encoding, and the number of words the block consumes for it (R73, R74). -/
  | illegal (why : IllegalReason) (length : Nat)
  /-- Words of the command are still to come. -/
  | incomplete
deriving DecidableEq, Repr

/-- The command with opcode `op`, header words `w0` and `w1` and the given payload, its fields read as R65 to R70 lay
them out (R72: unsigned, none scaled). -/
def assemble (op : Opcode) (w0 w1 : Word) (payload : List Byte) : Instr :=
  match op with
  | .fbGetPage => .fbGetPage (w0.extractLsb' 0 8)
  | .fbSetPage => .fbSetPage (w0.extractLsb' 0 8) payload
  | .fbGetPixel => .fbGetPixel (w0.extractLsb' 0 12) (w0.extractLsb' 12 12) (w0.getLsbD 27)
  | .fbSetPixel => .fbSetPixel (w0.extractLsb' 0 12) (w0.extractLsb' 12 12) (w0.getLsbD 26) (w0.getLsbD 27)
  | .fbBlit =>
    .fbBlit (w0.extractLsb' 0 12) (w0.extractLsb' 12 12) (blitWidth w1) (blitHeight w1) (w0.getLsbD 27) payload
  | .fbGetBuffer => .fbGetBuffer
  | .fbSetBuffer => .fbSetBuffer payload
  | .tmPush => .tmPush (w0.extractLsb' 0 8) (w0.extractLsb' 8 8) (w0.extractLsb' 16 8)
  | .tmSetContrast => .tmSetContrast (w0.extractLsb' 0 8)
  | .tmSetScrollMode => .tmSetScrollMode (w0.extractLsb' 0 8)

/-- The second header word, where the format has one; zero for the other formats, and none when it has not come yet. -/
def secondHeader (op : Opcode) (tail : List Word) : Option Word :=
  match op with
  | .fbBlit => tail.head?
  | _ => some 0

/-- Whether a header word has a reserved bit set (R74). -/
def hasReservedBit (op : Opcode) (w0 w1 : Word) : Bool :=
  w0 &&& op.reservedMask != 0 || w1 &&& op.secondReservedMask != 0

/-- A command whose opcode and header words are known, the words after the first header word being `tail` (R61, R74). -/
def decodeWith (pages : Nat) (op : Opcode) (w0 w1 : Word) (tail : List Word) : Decoded :=
  if tail.length + 1 < op.commandLength pages w1 then .incomplete
  else if hasReservedBit op w0 w1 then .illegal .reservedBit (op.commandLength pages w1)
  else .command (assemble op w0 w1 (unpackBytes (op.payloadBytes pages w1) (tail.drop (op.headerWords - 1))))
    (op.commandLength pages w1)

/-- The decoder (R76): the first header word gives the opcode, a blit's second one its size, and `pages` is
`cfg.PAGES`. Total on every list of words. -/
def decode (pages : Nat) (ws : List Word) : Decoded :=
  match ws with
  | [] => .incomplete
  | w0 :: tail =>
    match opcodeOf w0 with
    | none => .illegal .reservedOpcode 1
    | some op =>
      match secondHeader op tail with
      | none => .incomplete
      | some w1 => decodeWith pages op w0 w1 tail

/-! ## The encoder (R65 to R70, R63) -/

/-- Format P (R65). -/
def formatP (op : BitVec 4) (page : Byte) : Word := op ++ (0 : BitVec 20) ++ page

/-- Format X (R66); FB_GET_PIXEL sends 0 in the bit of `val`. -/
def formatX (op : BitVec 4) (inv val : Bool) (y x : Coord) : Word :=
  op ++ BitVec.ofBool inv ++ BitVec.ofBool val ++ (0 : BitVec 2) ++ y ++ x

/-- Format B, word 0 (R67). -/
def formatB0 (op : BitVec 4) (inv : Bool) (ypos xpos : Coord) : Word :=
  op ++ BitVec.ofBool inv ++ (0 : BitVec 3) ++ ypos ++ xpos

/-- Format B, word 1 (R67). -/
def formatB1 (height width : Coord) : Word := (0 : BitVec 8) ++ height ++ width

/-- Format G (R68). -/
def formatG (op : BitVec 4) : Word := op ++ (0 : BitVec 28)

/-- Format T (R69). -/
def formatT (op : BitVec 4) (count col page : Byte) : Word := op ++ (0 : BitVec 4) ++ count ++ col ++ page

/-- Format C (R70). -/
def formatC (op : BitVec 4) (arg : Byte) : Word := op ++ (0 : BitVec 20) ++ arg

/-- The words of a command: its header words, then its payload (R60). -/
def encode : Instr → List Word
  | .fbGetPage page => [formatP 0x1 page]
  | .fbSetPage page payload => formatP 0x2 page :: packBytes payload
  | .fbGetPixel x y inv => [formatX 0x3 inv false y x]
  | .fbSetPixel x y val inv => [formatX 0x4 inv val y x]
  | .fbBlit xpos ypos width height inv payload =>
    formatB0 0x5 inv ypos xpos :: formatB1 height width :: packBytes payload
  | .fbGetBuffer => [formatG 0x6]
  | .fbSetBuffer payload => formatG 0x7 :: packBytes payload
  | .tmPush page col count => [formatT 0x8 count col page]
  | .tmSetContrast level => [formatC 0x9 level]
  | .tmSetScrollMode selector => [formatC 0xA selector]

/-! ## The opcode table's numbering of bits -/

/-- The words of the instruction whose first `nbits` bits are those of `w` (bit 0 the least significant bit of the
first word, a later word's bits counting on) and whose other bits are all 0, on an instance of `pages` pages. -/
def tableWords (pages nbits w : Nat) : List Word :=
  let head := (List.range (max 1 ((nbits + 31) / 32))).map fun k => BitVec.ofNat 32 ((w % 2 ^ nbits) >>> (32 * k))
  let length :=
    match opcodeOf (head.headD 0) with
    | none => 1
    | some op => op.commandLength pages (head.getD 1 0)
  head ++ List.replicate (length - head.length) 0

/-- The instruction the decoder reads from an instruction of the opcode table, on the instance `State.reset` is
(`cfg.PAGES` enters the length of FB_SET_BUFFER, R76); none where it refuses. -/
def decodeTableWord (nbits w : Nat) : Option Instr :=
  match decode (Config.constructionArgs.height / 8) (tableWords (Config.constructionArgs.height / 8) nbits w) with
  | .command i _ => some i
  | .illegal _ _ => none
  | .incomplete => none

end Sys2Proof
end

