-- ==== Sys2Proof/Machine/State.lean ====
section
/-! DEFINITION. The state of PFB-TM (spec/10_state.md R20 to R31), the reasons a step can stop, and the state right
after reset. The fields from `channel` on are the model's own, no state of the block: its
channels, and the records and inputs that a step function of one argument has to find in the state (log entries 2 to 5,
20 and 21). -/

namespace Sys2Proof.Machine

/-- The configuration registers, read-only after reset, with the widths of 10_state.md R20. -/
structure ConfigRegs where
  width         : BitVec 8
  height        : BitVec 12
  pages         : BitVec 9
  transportKind : Backing
  flip          : Bool
deriving DecidableEq, Repr

/-- The framebuffer's contents: (address, byte) pairs with strictly rising addresses and no byte 0x00, which is what
an unlisted address reads as (10_state.md R25). `Memory.wf` says so. -/
abbrev Memory := List Host.Cell

/-- The transport phase (10_state.md R26). -/
inductive TmPhase where
  | idle
  | pending (backing : Backing) (txn : Transaction)
deriving DecidableEq, Repr

/-- One entry of the transaction history (10_state.md R28). -/
structure HistEntry where
  backing : Backing
  txn     : Transaction
  outcome : TxnOutcome
deriving DecidableEq, Repr

/-- A transaction handed over before the last construction, with the outcome it had; none when the construction dropped
it (70_reset_and_hazards.md R180). -/
structure PastEntry where
  backing : Backing
  txn     : Transaction
  outcome : Option TxnOutcome
deriving DecidableEq, Repr

/-- The status codes (60_exceptions.md R160). -/
inductive Status where
  | ok
  | eprecond
  | illegal
  | busfail
deriving DecidableEq, Repr

/-- A response: its status, its `pix` bit and its data bytes (30_encoding.md R64). -/
structure Response where
  status : Status
  pix    : Bool
  data   : List Byte
deriving DecidableEq, Repr

/-- Who put a word on the command channel: the instance's one owner, or any other agent (60_exceptions.md R168). -/
inductive Sender where
  | owner
  | other
deriving DecidableEq, Repr

/-- A word on the command channel, with the agent that sent it. -/
structure ChannelWord where
  sender : Sender
  word   : Word
deriving DecidableEq, Repr

/-- The state. -/
structure State where
  /-- `cfg` (R20). -/
  cfg          : ConfigRegs
  /-- `FB` (R24). -/
  fb           : Memory
  /-- `tm_phase` (R26). -/
  tmPhase      : TmPhase
  /-- `pc`, an unbounded natural: the index of the next command word (R23). -/
  pc           : Nat
  /-- `hist`, oldest first (R28). -/
  hist         : List HistEntry
  /-- The words sent on the command channel and not read by the block yet, the next one first (30_encoding.md R60). -/
  channel      : List ChannelWord
  /-- The responses sent, oldest first (30_encoding.md R60, R64; the model's record, read by no command). -/
  responses    : List Response
  /-- How many of the responses the owner has read (60_exceptions.md R169; the model's own, read by no step). -/
  received     : Nat
  /-- How many turns the owner has had in step with the block: only indexes `Config.ownerProgram` (the model's own). -/
  turns        : Nat
  /-- How many outcomes backings have returned: only indexes `Config.backingOutcome` (the model's own). -/
  draws        : Nat
  /-- The transactions handed over before the last construction, oldest first: the part of the record that `hist` loses
  at a reset, for what may be said of the panel (the model's own, read by no step; log entry 21). -/
  earlier      : List PastEntry
  /-- A construction the surrounding system asks for (70_reset_and_hazards.md R180; an input of the model). -/
  resetRequest : Option ConstructionArgs
deriving DecidableEq, Repr

/-- Why the machine stops. Every one of these is safe: the model stops where it has no rule to go on by. -/
inductive Fault where
  /-- Raised by `step` when the command at `pc` holds a word that another agent than the owner sent: 60_exceptions.md
  R168, "A model must represent a second owner as a fault, `ConcurrentOwner`, that ends every claim". Safe. -/
  | concurrentOwner
  /-- Raised by `State.memRead` and `State.memWrite`, so by a meaning that would call them outside the range in which
  20_memory.md R40 defines them. No command does ("no rule calls them out of range"). Safe. -/
  | addressOutOfRange
  /-- Raised by FB_SET_PAGE, FB_BLIT and FB_SET_BUFFER on a command value that is not well formed (its payload is not
  PAYLOAD_BYTES long, 30_encoding.md R61). The decoder gives no such value. Safe. -/
  | payloadLength
deriving DecidableEq, Repr

/-- Why an instruction or an instance has no meaning. -/
inductive Refusal where
  /-- Raised by an arm of `exec` for an instruction that is not modelled yet. Safe. -/
  | notModelled (mnemonic : String)
  /-- Raised by `construct` on arguments outside 70_reset_and_hazards.md R181, and by `step` in a state whose `cfg` no
  legal arguments give: "With any other arguments no instance exists: a model refuses the configuration and gives it no
  step". Safe. -/
  | illegalConstruction
deriving DecidableEq, Repr

/-- The registers that construction arguments give (10_state.md R20, R31). -/
def ConfigRegs.sampled (a : ConstructionArgs) : ConfigRegs :=
  { width         := BitVec.ofNat 8 a.width
    height        := BitVec.ofNat 12 a.height
    pages         := BitVec.ofNat 9 (a.height / 8)
    transportKind := if a.transportKind = 0 then .addressed else .serial
    flip          := a.flip == 1 }

/-- The state right after construction with `a` (10_state.md R31, 70_reset_and_hazards.md R180), the channels empty. -/
def State.constructed (a : ConstructionArgs) : State :=
  { cfg          := ConfigRegs.sampled a
    fb           := []
    tmPhase      := .idle
    pc           := 0
    hist         := []
    channel      := []
    responses    := []
    received     := 0
    turns        := 0
    draws        := 0
    earlier      := []
    resetRequest := none }

/-- The machine right after reset: the instance that `Config.constructionArgs` builds (log entry 1). -/
def State.reset : State := State.constructed Config.constructionArgs

end Sys2Proof.Machine
end

