-- ==== Sys2Proof/Machine/Flags.lean ====
section
/-! DEFINITION. The status a command reports. PFB-TM has no flag register (spec/10_state.md R22) and stores no status
(R29): what stands where another machine has flags is the response of spec/30_encoding.md R64, its status code and its
`pix` bit. -/

namespace Sys2Proof.Machine

/-- The number of a status code (30_encoding.md R64, 60_exceptions.md R160). -/
def Status.code : Status → BitVec 2
  | .ok => 0
  | .eprecond => 1
  | .illegal => 2
  | .busfail => 3

/-- The status a transaction's outcome gives its command (42_transport_ops.md R143 to R146). -/
def Status.ofOutcome : TxnOutcome → Status
  | .ack => .ok
  | .fail => .busfail

/-- The status word: `status` in [1:0], `pix` in [2], zero above (30_encoding.md R64). -/
def Response.statusWord (r : Response) : Word := (0 : BitVec 29) ++ BitVec.ofBool r.pix ++ r.status.code

/-- A response as the words of the response channel: the status word, then the data words (30_encoding.md R64, R63). -/
def Response.words (r : Response) : List Word := r.statusWord :: packBytes r.data

/-- What R64 lets a response be: data words and a set `pix` only with the status OK. -/
abbrev Response.wf (r : Response) : Prop := r.status ≠ .ok → r.pix = false ∧ r.data = []

end Sys2Proof.Machine
end

