-- ==== Sys2Proof/Machine/BitFunctions.lean ====
section
/-! DEFINITION. The bit functions of spec/40_bit_functions.md (R100 to R104), total functions that raise no status. -/

namespace Sys2Proof.Machine

/-- `rotate_byte(b)`: `r[i] = b[7 - i]` (R100). -/
def rotateByte (b : Byte) : Byte :=
  BitVec.ofBool (b.getLsbD 0) ++ BitVec.ofBool (b.getLsbD 1) ++ BitVec.ofBool (b.getLsbD 2) ++
    BitVec.ofBool (b.getLsbD 3) ++ BitVec.ofBool (b.getLsbD 4) ++ BitVec.ofBool (b.getLsbD 5) ++
    BitVec.ofBool (b.getLsbD 6) ++ BitVec.ofBool (b.getLsbD 7)

/-- `copy_bit(src, sb, dst, db) = (dst & ~(1 << db)) | (src[sb] << db)` (R101). -/
def copyBit (src : Byte) (sb : Nat) (dst : Byte) (db : Nat) : Byte :=
  (dst &&& ~~~((1 : Byte) <<< db)) ||| ((BitVec.ofBool (src.getLsbD sb)).setWidth 8 <<< db)

/-- `invert(buf)`: every byte complemented (R102). -/
def invert (buf : List Byte) : List Byte := buf.map fun b => ~~~b

/-- `pixbit(r)`: the bit of its byte that holds row `r` of a page (R103). -/
def pixbit (flip : Bool) (r : Nat) : Nat := if flip then 7 - r else r

/-- `rotate_byte` applied when the panel is flipped (R104). -/
def orient (flip : Bool) (b : Byte) : Byte := if flip then rotateByte b else b

/-- A pixel value as the `u8` source of `copy_bit` (R104). -/
def pixelByte (v : Bool) : Byte := (BitVec.ofBool v).setWidth 8

/-- The linear address of the byte that holds pixel `(x, y)`: page `y div 8`, column `x` (20_memory.md R40, R41). -/
def pixelAddress (x y : Nat) : Nat := y / 8 * 128 + x

/-- `PixWrite(x, y, v)` (R104). Its callers check the bounds first. -/
def pixWrite (flip : Bool) (fb : Memory) (x y : Nat) (v : Bool) : Memory :=
  let w := orient flip (fb.read (pixelAddress x y))
  let w := copyBit (pixelByte v) 0 w (y % 8)
  fb.write (pixelAddress x y) (orient flip w)

/-- `PixRead(x, y)` (R104). Its callers check the bounds first. -/
def pixRead (flip : Bool) (fb : Memory) (x y : Nat) : Bool :=
  (orient flip (fb.read (pixelAddress x y))).getLsbD (y % 8)

end Sys2Proof.Machine
end

