-- ==== Sys2Proof/Machine/Operands.lean ====
section
/-! DEFINITION. How commands address the framebuffer: page addresses, pixel bounds, the push's clamp, the bits of a blit
bitmap (spec/20_memory.md R40, R41; 41_framebuffer_ops.md R114; 42_transport_ops.md R143), and which configurations are
legal (70_reset_and_hazards.md R181). All index arithmetic is in the naturals (00_scope.md R10). -/

namespace Sys2Proof.Machine

/-- `COLS`: bytes in a page (00_scope.md R6). -/
def cols : Nat := 128

/-- `cfg.PAGES` as a number. -/
def State.pageCount (s : State) : Nat := s.cfg.pages.toNat

/-- The size of `FB` in bytes, `cfg.PAGES * 128` (10_state.md R24). -/
def State.fbSize (s : State) : Nat := s.pageCount * cols

/-- The linear address of column 0 of a page (20_memory.md R40). -/
def pageAddress (page : Byte) : Nat := page.toNat * cols

/-- Whether `page` addresses storage (10_state.md R20: "every bounds check" reads PAGES). -/
def State.pageInBounds (s : State) (page : Byte) : Bool := decide (page.toNat < s.pageCount)

/-- Whether pixel `(x, y)` addresses storage: `x < 128` and `y < 8*cfg.PAGES` (20_memory.md R41). `cfg.WIDTH` plays no
part (10_state.md R27). -/
def State.pixelInBounds (s : State) (x y : Nat) : Bool := decide (x < cols ∧ y < 8 * s.pageCount)

/-- Whether a push sends something (42_transport_ops.md R143). -/
def State.pushSends (s : State) (page col count : Byte) : Bool :=
  s.pageInBounds page && decide (col.toNat < cols) && decide (count.toNat ≠ 0)

/-- `n' = min(count, 128 - col)`: the bytes a push sends (42_transport_ops.md R143). -/
def pushCount (col count : Byte) : Nat := min count.toNat (cols - col.toNat)

/-- Bit `(i, j)` of a bitmap of `width` columns: row `j`, column `i`, bit 7 of a byte the leftmost of its 8 columns
(41_framebuffer_ops.md R114). -/
def bitmapBit (width : Nat) (bitmap : List Byte) (i j : Nat) : Bool :=
  (bitmap.getD (j * (width / 8) + i / 8) 0).getLsbD (7 - i % 8)

/-- Which register values legal arguments give (10_state.md R20, "legal values"): an instance whose `cfg` is anything
else does not exist (70_reset_and_hazards.md R181). -/
def ConfigRegs.legal (c : ConfigRegs) : Bool :=
  decide (1 ≤ c.width.toNat ∧ c.width.toNat ≤ 128) &&
    decide (c.height.toNat % 8 = 0 ∧ 8 ≤ c.height.toNat ∧ c.height.toNat ≤ 2048) &&
    decide (c.pages.toNat = c.height.toNat / 8)

end Sys2Proof.Machine

namespace Sys2Proof

/-- Which arguments an instance can be constructed with (70_reset_and_hazards.md R181). -/
def ConstructionArgs.legal (a : ConstructionArgs) : Bool :=
  decide (a.height % 8 = 0 ∧ 8 ≤ a.height ∧ a.height ≤ 2048) &&
    decide (1 ≤ a.width ∧ a.width ≤ 128) &&
    decide (a.transportKind ≤ 1 ∧ a.flip ≤ 1)

end Sys2Proof
end

