-- ==== Sys2Proof/Machine/Ops.lean ====
section
/-! DEFINITION. The primitives of spec/00_scope.md R11, which every command is written with: MemRead and MemWrite with
their range, respond, raise, Emit and the backing's reply, and construction. -/

namespace Sys2Proof.Machine

/-- `FB` replaced. -/
def State.setFb (s : State) (fb : Memory) : State := { s with fb := fb }

/-- `tm_phase` replaced (10_state.md R26). -/
def State.setPhase (s : State) (phase : TmPhase) : State := { s with tmPhase := phase }

/-- `hist <- hist ++ [(bk, txn, o)]`, one more outcome having been drawn (42_transport_ops.md R140). -/
def State.record (s : State) (bk : Backing) (txn : Transaction) (o : TxnOutcome) : State :=
  { s with hist := s.hist ++ [{ backing := bk, txn := txn, outcome := o }], draws := s.draws + 1 }

/-- `MemRead(a, n)`; defined only when `a + n <= cfg.PAGES*128` (20_memory.md R40). -/
def State.memRead (s : State) (a n : Nat) : Option (List Byte) :=
  if a + n ≤ s.fbSize then some (s.fb.readBytes a n) else none

/-- `MemWrite(a, n, v)` with `n` the length of `v`; defined only when `a + n <= cfg.PAGES*128` (20_memory.md R40). -/
def State.memWrite (s : State) (a : Nat) (bytes : List Byte) : Option State :=
  if a + bytes.length ≤ s.fbSize then some (s.setFb (s.fb.writeBytes a bytes)) else none

/-- A response put on the response channel (30_encoding.md R60, R64). -/
def State.answer (s : State) (r : Response) : State := { s with responses := s.responses ++ [r] }

/-- `respond(OK, data)` (00_scope.md R11). -/
def State.respond (s : State) (data : List Byte) : State := s.answer { status := .ok, pix := false, data := data }

/-- `respond(OK, pix = v)` (41_framebuffer_ops.md R112). -/
def State.respondPixel (s : State) (v : Bool) : State := s.answer { status := .ok, pix := v, data := [] }

/-- `raise S()`: `respond(S, [])` with no state change made by the operation. This is all that an error does: no state
is saved, no mode changes, control goes on to the next command (00_scope.md R11, 60_exceptions.md R160, R165). There is
no return from it (R166). -/
def State.raise (s : State) (status : Status) : State := s.answer { status := status, pix := false, data := [] }

/-- `MemRead` followed by `respond(OK, bytes)`. -/
def State.respondRead (s : State) (a n : Nat) : Host.Outcome State Fault Refusal :=
  match s.memRead a n with
  | some bytes => .next (s.respond bytes)
  | none => .fault .addressOutOfRange

/-- `MemWrite` followed by `respond(OK, [])`. -/
def State.writeRespond (s : State) (a : Nat) (bytes : List Byte) : Host.Outcome State Fault Refusal :=
  match s.memWrite a bytes with
  | some t => .next (t.respond [])
  | none => .fault .addressOutOfRange

/-- One pixel of a write through `pixbit`: `if X < 128 and Y < 8*cfg.PAGES then PixWrite(X, Y, v)`, any other pixel
dropped (41_framebuffer_ops.md R113, R114). -/
def State.drawPixel (s : State) (fb : Memory) (x y : Nat) (v : Bool) : Memory :=
  if s.pixelInBounds x y then pixWrite s.cfg.flip fb x y v else fb

/-- The first part of `Emit(cfg.TRANSPORT_KIND, txn)`: the transaction is handed to the selected backing and the
command waits for its outcome (42_transport_ops.md R140, R141). -/
def State.emit (s : State) (txn : Transaction) : State := s.setPhase (.pending s.cfg.transportKind txn)

/-- The rest of `Emit`, and of the command that called it: the backing returns outcome `o`, the history gains the
transaction, the phase is idle again, and the command responds OK or BUSFAIL (42_transport_ops.md R140, R143 to R146). -/
def State.complete (s : State) (bk : Backing) (txn : Transaction) (o : TxnOutcome) : State :=
  ((s.record bk txn o).setPhase .idle).raise (Status.ofOutcome o)

/-- The step of the pending backing: it returns `Ack` or `Fail`, a free draw (42_transport_ops.md R148). -/
def State.backingReturns (s : State) (bk : Backing) (txn : Transaction) : State :=
  s.complete bk txn (Config.backingOutcome bk txn s.draws)

/-- Construction with the given arguments; no instance for illegal ones (70_reset_and_hazards.md R180, R181). -/
def construct (a : ConstructionArgs) : Host.Outcome State Fault Refusal :=
  if a.legal then .next (State.constructed a) else .refused .illegalConstruction

/-- A completed transaction, as the record of an earlier instance keeps it. -/
def HistEntry.past (e : HistEntry) : PastEntry := { backing := e.backing, txn := e.txn, outcome := some e.outcome }

/-- The transactions an instance has handed over, the ones of its forerunners first, a pending one without an outcome. -/
def State.handedOver (s : State) : List PastEntry :=
  s.earlier ++ s.hist.map HistEntry.past ++
    match s.tmPhase with
    | .idle => []
    | .pending bk txn => [{ backing := bk, txn := txn, outcome := none }]

/-- A reset applied again (70_reset_and_hazards.md R180): every piece of the block's state as construction leaves it, a
pending transaction dropped with its outcome. What lies outside the block stays: the owner's words that nothing has
read, and the counts of the owner's turns and of the draws (log entry 5); and the record keeps what has been handed over
(log entry 21). A command whose transaction is dropped is never answered; that the owner does not wait for that response
and may send its next command is the model's choice (log entry 24). -/
def State.reconstruct (s : State) (a : ConstructionArgs) : Host.Outcome State Fault Refusal :=
  if a.legal then
    .next { State.constructed a with
      channel := s.channel, turns := s.turns, draws := s.draws, earlier := s.handedOver }
  else .refused .illegalConstruction

end Sys2Proof.Machine
end

