-- ==== Sys2Proof/Machine/BulkPort.lean ====
section
/-! DEFINITION. The bulk port: FB_GET_BUFFER and FB_SET_BUFFER (spec/41_framebuffer_ops.md R115, R116). Bytes are raw:
`cfg.FLIP` does not apply. -/

namespace Sys2Proof.Machine

/-- FB_GET_BUFFER (R115): `respond(OK, MemRead(0, cfg.PAGES*128))`. -/
def execFbGetBuffer (s : State) : Host.Outcome State Fault Refusal := s.respondRead 0 s.fbSize

/-- FB_SET_BUFFER (R116): `MemWrite(0, cfg.PAGES*128, d)`. -/
def execFbSetBuffer (payload : List Byte) (s : State) : Host.Outcome State Fault Refusal :=
  if payload.length ≠ s.fbSize then .fault .payloadLength else s.writeRespond 0 payload

end Sys2Proof.Machine
end

