-- ==== Sys2Proof/Machine/PagePort.lean ====
section
/-! DEFINITION. The page port: FB_GET_PAGE and FB_SET_PAGE (spec/41_framebuffer_ops.md R110, R111). Bytes are raw:
`cfg.FLIP` does not apply. -/

namespace Sys2Proof.Machine

/-- FB_GET_PAGE (R110). A page outside the buffer reads as 128 zero bytes, with status OK. -/
def execFbGetPage (page : Byte) (s : State) : Host.Outcome State Fault Refusal :=
  if s.pageInBounds page then s.respondRead (pageAddress page) 128
  else .next (s.respond (List.replicate 128 0x00))

/-- FB_SET_PAGE (R111). A page outside the buffer drops the write, with status OK. -/
def execFbSetPage (page : Byte) (payload : List Byte) (s : State) : Host.Outcome State Fault Refusal :=
  if payload.length ≠ 128 then .fault .payloadLength
  else if s.pageInBounds page then s.writeRespond (pageAddress page) payload
  else .next (s.respond [])

end Sys2Proof.Machine
end

