-- ==== Sys2Proof/Machine/PixelPort.lean ====
section
/-! DEFINITION. The pixel port: FB_GET_PIXEL and FB_SET_PIXEL (spec/41_framebuffer_ops.md R112, R113). -/

namespace Sys2Proof.Machine

/-- FB_GET_PIXEL (R112). Out of bounds, `pix = 0` whatever `inv` is. -/
def execFbGetPixel (x y : Coord) (inv : Bool) (s : State) : Host.Outcome State Fault Refusal :=
  if s.pixelInBounds x.toNat y.toNat then
    .next (s.respondPixel (pixRead s.cfg.flip s.fb x.toNat y.toNat ^^ inv))
  else .next (s.respondPixel false)

/-- FB_SET_PIXEL (R113). Out of bounds, nothing is written, with status OK. -/
def execFbSetPixel (x y : Coord) (val inv : Bool) (s : State) : Host.Outcome State Fault Refusal :=
  .next ((s.setFb (s.drawPixel s.fb x.toNat y.toNat (val ^^ inv))).respond [])

end Sys2Proof.Machine
end

