-- ==== Sys2Proof/Machine/RegionWriter.lean ====
section
/-! DEFINITION. The region writer: FB_BLIT (spec/41_framebuffer_ops.md R114). -/

namespace Sys2Proof.Machine

/-- Row `j` of a blit: columns `0 .. width-1` of the source bitmap, left to right (R114). -/
def State.blitRow (s : State) (xpos ypos width : Nat) (bitmap : List Byte) (fb : Memory) (j : Nat) : Memory :=
  (List.range width).foldl
    (fun m i => s.drawPixel m (xpos + i) (ypos + j) (bitmapBit width bitmap i j)) fb

/-- The framebuffer a blit leaves: rows `0 .. height-1`, top to bottom (R114). -/
def State.blit (s : State) (xpos ypos width height : Nat) (bitmap : List Byte) : Memory :=
  (List.range height).foldl (s.blitRow xpos ypos width bitmap) s.fb

/-- FB_BLIT (R114). The width is checked before any write (60_exceptions.md R164). -/
def execFbBlit (xpos ypos width height : Coord) (inv : Bool) (payload : List Byte) (s : State) :
    Host.Outcome State Fault Refusal :=
  if payload.length ≠ blitPayloadBytes width height then .fault .payloadLength
  else if width.toNat % 8 ≠ 0 then .next (s.raise .eprecond)
  else
    let bitmap := if inv then invert payload else payload
    .next ((s.setFb (s.blit xpos.toNat ypos.toNat width.toNat height.toNat bitmap)).respond [])

end Sys2Proof.Machine
end

