-- ==== Sys2Proof/Machine/Transport.lean ====
section
/-! DEFINITION. The transport multiplexer: TM_PUSH, TM_SET_CONTRAST and TM_SET_SCROLL_MODE (spec/42_transport_ops.md
R143, R145, R146). Each ends here with its transaction pending; the response comes with the backing's outcome, in the
backing's own step (`State.backingReturns`; spec/00_scope.md R12, 20_memory.md R47). -/

namespace Sys2Proof.Machine

/-- TM_PUSH (R143): nothing is sent for an out-of-range page or column or a count of 0; else the bytes go out raw, cut
at column 127. -/
def execTmPush (page col count : Byte) (s : State) : Host.Outcome State Fault Refusal :=
  if s.pushSends page col count then
    match s.memRead (pageAddress page + col.toNat) (pushCount col count) with
    | some bytes => .next (s.emit (.writeRegion page col bytes))
    | none => .fault .addressOutOfRange
  else .next (s.respond [])

/-- TM_SET_CONTRAST (R145): the level is forwarded and not stored. -/
def execTmSetContrast (level : Byte) (s : State) : Host.Outcome State Fault Refusal :=
  .next (s.emit (.setContrast level))

/-- TM_SET_SCROLL_MODE (R146): the selector is forwarded, neither read nor stored. -/
def execTmSetScrollMode (selector : Byte) (s : State) : Host.Outcome State Fault Refusal :=
  .next (s.emit (.scrollMode selector))

end Sys2Proof.Machine
end

