-- ==== Sys2Proof/Machine/Dispatch.lean ====
section
/-! DEFINITION. One arm per command (spec/30_encoding.md R71). -/

namespace Sys2Proof.Machine

def exec (i : Instr) (s : State) : Host.Outcome State Fault Refusal :=
  match i with
  | .fbGetPage page => Sys2Proof.Machine.execFbGetPage page s
  | .fbSetPage page payload => Sys2Proof.Machine.execFbSetPage page payload s
  | .fbGetPixel x y inv => Sys2Proof.Machine.execFbGetPixel x y inv s
  | .fbSetPixel x y val inv => Sys2Proof.Machine.execFbSetPixel x y val inv s
  | .fbBlit xpos ypos width height inv payload => Sys2Proof.Machine.execFbBlit xpos ypos width height inv payload s
  | .fbGetBuffer => Sys2Proof.Machine.execFbGetBuffer s
  | .fbSetBuffer payload => Sys2Proof.Machine.execFbSetBuffer payload s
  | .tmPush page col count => Sys2Proof.Machine.execTmPush page col count s
  | .tmSetContrast level => Sys2Proof.Machine.execTmSetContrast level s
  | .tmSetScrollMode selector => Sys2Proof.Machine.execTmSetScrollMode selector s

end Sys2Proof.Machine
end

