-- ==== Sys2Proof/Machine/Fetch.lean ====
section
/-! DEFINITION. Reading a command from the command channel (spec/30_encoding.md R60, R61, R76; 10_state.md R23) and the
check that the owner sent all of it (60_exceptions.md R168); and the owner's own step, which sends the next one (R169). -/

namespace Sys2Proof.Machine

/-- What stands at the head of the command channel. -/
inductive Fetched where
  /-- A command and its length in words. -/
  | command (i : Instr) (length : Nat)
  /-- A reserved encoding and the words it takes (30_encoding.md R73, R74). -/
  | illegal (length : Nat)
  /-- No complete command yet: it is the owner's turn (60_exceptions.md R169, R175). -/
  | awaiting
  /-- A word of the command is not the owner's (60_exceptions.md R168). -/
  | foreign
deriving DecidableEq, Repr

/-- Whether the owner sent every one of these words. -/
def sentByOwner (ws : List ChannelWord) : Bool := ws.all fun w => w.sender == .owner

/-- The words of the channel. -/
def channelWords (ws : List ChannelWord) : List Word := ws.map ChannelWord.word

/-- The words of the owner's, as they stand on the channel. -/
def ownerWords (ws : List Word) : List ChannelWord := ws.map fun w => { sender := .owner, word := w }

/-- What the block reads at `pc`: the decoder's answer, if the owner sent all the words it rests on. -/
def State.fetch (s : State) : Fetched :=
  match decode s.pageCount (channelWords s.channel) with
  | .command i n => if sentByOwner (s.channel.take n) then .command i n else .foreign
  | .illegal _ n => if sentByOwner (s.channel.take n) then .illegal n else .foreign
  | .incomplete => if sentByOwner s.channel then .awaiting else .foreign

/-- `n` words consumed: `pc <- pc + n` (30_encoding.md R61). -/
def State.consume (s : State) (n : Nat) : State := { s with channel := s.channel.drop n, pc := s.pc + n }

/-! ## The owner's step -/

/-- What the owner's program has for this turn: the words of its next command, or none yet. -/
def State.ownerNext (s : State) : List Word := Config.ownerProgram (s.responses.map Response.words) s.turns

/-- Whether words of the owner's are in step with the block: none, or such that the block reads exactly one command off
the channel with them ("sends a command only after it has received the response to the previous one", 30_encoding.md
R60). An FB_SET_BUFFER with the snapshot of another `cfg.PAGES` is not: it "is a different command length and
desynchronises the stream" (70_reset_and_hazards.md R190). -/
def State.inStep (s : State) (ws : List Word) : Bool :=
  ws.isEmpty ||
    match decode s.pageCount (channelWords s.channel ++ ws) with
    | .command _ n => n == s.channel.length + ws.length
    | .illegal _ n => n == s.channel.length + ws.length
    | .incomplete => false

/-- What the owner sends at its turn. Words that are out of step it "must not issue" (93_implementation_defined.md I17):
it sends nothing. -/
def State.ownerSends (s : State) : List Word := if s.inStep s.ownerNext then s.ownerNext else []

/-- The owner's step (60_exceptions.md R169): it reads the responses that have arrived and sends the next command, or none
yet. An owner whose next words are out of step is stuck (93_implementation_defined.md I17): its program goes no further,
so that every later step is the same wait, until a construction (the model's choice among stuck and fault, log entry
25). A response that a reset has dropped is not waited for (log entry 24). -/
def State.ownerTurn (s : State) : State :=
  { s with
    channel := s.channel ++ ownerWords s.ownerSends
    received := s.responses.length
    turns := if s.inStep s.ownerNext then s.turns + 1 else s.turns }

end Sys2Proof.Machine
end

