-- ==== Sys2Proof/Machine/Step.lean ====
section
/-! DEFINITION. One step of the model (spec/60_exceptions.md R169). Plain data in the state says whose step it is: the
surrounding system's when a construction is asked for, the pending backing's when a transaction is pending, the block's
when a command is present, else the owner's, who sends the next one. -/

namespace Sys2Proof.Machine

/-- The block's step: one command, complete on the channel, is consumed at its full length and executed or reported
illegal (30_encoding.md R61, R73, R74). With no complete command present the block does not fire: every response has
arrived, and it is the owner's turn (60_exceptions.md R169, log entry 6). -/
def State.runCommand (s : State) : Host.Outcome State Fault Refusal :=
  match s.fetch with
  | .command i n => exec i (s.consume n)
  | .illegal n => .next ((s.consume n).raise .illegal)
  | .awaiting => .next s.ownerTurn
  | .foreign => .fault .concurrentOwner

def step (s : State) : Host.Outcome State Fault Refusal :=
  match s.resetRequest with
  | some a => s.reconstruct a
  | none =>
    if s.cfg.legal then
      match s.tmPhase with
      | .pending bk txn => .next (s.backingReturns bk txn)
      | .idle => s.runCommand
    else .refused .illegalConstruction

/-- The state with one instruction of the opcode table put at the head of the command channel, sent by the owner, and
the block ready to read it: no transaction pending, no construction asked for (log entry 7). -/
def State.withFetchWord (s : State) (nbits w : Nat) : State :=
  { s with
    channel := ownerWords (tableWords s.pageCount nbits w) ++ s.channel
    tmPhase := .idle
    resetRequest := none }

end Sys2Proof.Machine
end

