-- ==== Sys2Proof/WellFormed.lean ====
section
/-! DEFINITION. Which command values are commands: the operand fields have their formats' widths by their types, so the
one thing left to check is that a payload is as long as spec/30_encoding.md R61 says. -/

namespace Sys2Proof

/-- A command is well formed on an instance of `pages` pages when its payload has PAYLOAD_BYTES bytes (30_encoding.md
R61). A blit whose width is no multiple of 8 is well formed: it ends in EPRECOND (41_framebuffer_ops.md R114). -/
def Instr.wf (pages : Nat) : Instr → Bool
  | .fbGetPage _ => true
  | .fbSetPage _ payload => payload.length == 128
  | .fbGetPixel _ _ _ => true
  | .fbSetPixel _ _ _ _ => true
  | .fbBlit _ _ width height _ payload => payload.length == blitPayloadBytes width height
  | .fbGetBuffer => true
  | .fbSetBuffer payload => payload.length == pages * 128
  | .tmPush _ _ _ => true
  | .tmSetContrast _ => true
  | .tmSetScrollMode _ => true

/-- The length of a command in words on an instance of `pages` pages (30_encoding.md R61's table). -/
def Instr.lengthWords (pages : Nat) : Instr → Nat
  | .fbGetPage _ => 1
  | .fbSetPage _ _ => 33
  | .fbGetPixel _ _ _ => 1
  | .fbSetPixel _ _ _ _ => 1
  | .fbBlit _ _ width height _ _ => 2 + ceil4 (blitPayloadBytes width height)
  | .fbGetBuffer => 1
  | .fbSetBuffer _ => 1 + pages * 32
  | .tmPush _ _ _ => 1
  | .tmSetContrast _ => 1
  | .tmSetScrollMode _ => 1

end Sys2Proof
end

