-- ==== Sys2Proof/Machine/Assembly.lean ====
section
/-! DEFINITION. The assembler's notation for commands (spec/30_encoding.md R78) and its pseudo-instructions (R79): from
a line of text to the commands it stands for. It is a notation only (92_eei_decisions.md D21): no step reads it. -/

namespace Sys2Proof.Machine

/-- The mnemonics of R78 and the pseudo-instructions of R79. -/
inductive AsmOp where
  | getpage | setpage | getpix | setpix | blit | getbuf | setbuf | push | contrast | scroll
  | clrpix | clrpage | clear | pushpage | pushall
deriving DecidableEq, Repr

/-- How a mnemonic is written (R78, R79). -/
def AsmOp.text : AsmOp → String
  | .getpage => "fb.getpage"
  | .setpage => "fb.setpage"
  | .getpix => "fb.getpix"
  | .setpix => "fb.setpix"
  | .blit => "fb.blit"
  | .getbuf => "fb.getbuf"
  | .setbuf => "fb.setbuf"
  | .push => "tm.push"
  | .contrast => "tm.contrast"
  | .scroll => "tm.scroll"
  | .clrpix => "fb.clrpix"
  | .clrpage => "fb.clrpage"
  | .clear => "fb.clear"
  | .pushpage => "tm.pushpage"
  | .pushall => "tm.pushall"

/-- Every mnemonic. -/
def AsmOp.all : List AsmOp :=
  [.getpage, .setpage, .getpix, .setpix, .blit, .getbuf, .setbuf, .push, .contrast, .scroll,
    .clrpix, .clrpage, .clear, .pushpage, .pushall]

/-- An operand: a number, a byte list in braces, or the trailing `inv` (R78). -/
inductive AsmArg where
  | num (n : Nat)
  | bytes (ns : List Nat)
  | inv
deriving DecidableEq, Repr

/-- A number that fits a field of `w` bits; none fits it otherwise (R72: such a value cannot be encoded). -/
def fit (w n : Nat) : Option (BitVec w) := if n < 2 ^ w then some (BitVec.ofNat w n) else none

/-- A byte list. -/
def fitBytes (ns : List Nat) : Option (List Byte) := ns.mapM (fit 8)

/-- The inversion flag: "A trailing `inv` sets the inversion flag. An omitted `inv` means `inv = 0`" (R78). -/
def invFlag : List AsmArg → Option Bool
  | [] => some false
  | [.inv] => some true
  | _ => none

/-- The commands of a line on an instance of `pages` pages, their payloads not yet checked (R78, R79). -/
def assembleOp (pages : Nat) : AsmOp → List AsmArg → Option (List Instr)
  | .getpage, [.num p] => do return [.fbGetPage (← fit 8 p)]
  | .setpage, [.num p, .bytes d] => do return [.fbSetPage (← fit 8 p) (← fitBytes d)]
  | .getpix, .num x :: .num y :: rest => do return [.fbGetPixel (← fit 12 x) (← fit 12 y) (← invFlag rest)]
  | .setpix, .num x :: .num y :: .num v :: rest => do
    return [.fbSetPixel (← fit 12 x) (← fit 12 y) ((← fit 1 v).getLsbD 0) (← invFlag rest)]
  | .blit, .num x :: .num y :: .num w :: .num h :: .bytes d :: rest => do
    return [.fbBlit (← fit 12 x) (← fit 12 y) (← fit 12 w) (← fit 12 h) (← invFlag rest) (← fitBytes d)]
  | .getbuf, [] => some [.fbGetBuffer]
  | .setbuf, [.bytes d] => do return [.fbSetBuffer (← fitBytes d)]
  | .push, [.num p, .num c, .num n] => do return [.tmPush (← fit 8 p) (← fit 8 c) (← fit 8 n)]
  | .contrast, [.num n] => do return [.tmSetContrast (← fit 8 n)]
  | .scroll, [.num n] => do return [.tmSetScrollMode (← fit 8 n)]
  | .clrpix, [.num x, .num y] => do return [.fbSetPixel (← fit 12 x) (← fit 12 y) false false]
  | .clrpage, [.num p] => do return [.fbSetPage (← fit 8 p) (List.replicate 128 0)]
  | .clear, [] => some [.fbSetBuffer (List.replicate (pages * 128) 0)]
  | .pushpage, [.num p] => do return [.tmPush (← fit 8 p) 0 128]
  | .pushall, [] => some ((List.range pages).map fun p => .tmPush (BitVec.ofNat 8 p) 0 128)
  | _, _ => none

/-- The commands of a line; none when a payload is not PAYLOAD_BYTES long (R61). -/
def assembleLine (pages : Nat) (op : AsmOp) (args : List AsmArg) : Option (List Instr) := do
  let is ← assembleOp pages op args
  if is.all (Instr.wf pages) then some is else none

/-! ## The text -/

/-- The character that opens a byte list. -/
def openBrace : Char := Char.ofNat 0x7B

/-- The character that closes a byte list. -/
def closeBrace : Char := Char.ofNat 0x7D

/-- A digit's value in base `base`. -/
def digit (base : Nat) (c : Char) : Option Nat :=
  let v :=
    if '0' ≤ c ∧ c ≤ '9' then c.toNat - '0'.toNat
    else if 'a' ≤ c ∧ c ≤ 'f' then c.toNat - 'a'.toNat + 10
    else if 'A' ≤ c ∧ c ≤ 'F' then c.toNat - 'A'.toNat + 10
    else base
  if v < base then some v else none

/-- Digits in base `base`, most significant first. -/
def digits (base : Nat) (cs : List Char) : Option Nat :=
  if cs.isEmpty then none
  else cs.foldlM (fun acc c => do return acc * base + (← digit base c)) 0

/-- "Numbers are decimal or `0x` hexadecimal" (R78). -/
def parseNumber : List Char → Option Nat
  | '0' :: 'x' :: cs => digits 16 cs
  | cs => digits 10 cs

/-- Without the spaces around it. -/
def trimSpaces (cs : List Char) : List Char :=
  ((cs.dropWhile (· == ' ')).reverse.dropWhile (· == ' ')).reverse

/-- Comma-separated pieces, a comma inside braces not counting; `cur` is the piece read so far, reversed. -/
def splitCommas (inBraces : Bool) (cur : List Char) : List Char → List (List Char)
  | [] => [trimSpaces cur.reverse]
  | c :: cs =>
    if c = ',' ∧ inBraces = false then trimSpaces cur.reverse :: splitCommas false [] cs
    else splitCommas (if c = openBrace then true else if c = closeBrace then false else inBraces) (c :: cur) cs

/-- The words of a text, the spaces between them left out; `cur` is the word read so far, reversed. -/
def splitSpaces (cur : List Char) : List Char → List (List Char)
  | [] => if cur.isEmpty then [] else [cur.reverse]
  | c :: cs =>
    if c = ' ' then (if cur.isEmpty then splitSpaces [] cs else cur.reverse :: splitSpaces [] cs)
    else splitSpaces (c :: cur) cs

/-- How often a byte is repeated: a number, or `cfg.PAGES*128` as the expansion of `fb.clear` has it (R79). -/
def parseCount (pages : Nat) (cs : List Char) : Option Nat :=
  if cs = "cfg.PAGES*128".toList then some (pages * 128) else parseNumber cs

/-- One piece of a byte list: a byte, or `b x n`, which stands for `n` times the byte `b`. The spec writes lists so (R79,
41_framebuffer_ops.md R111, 95_test_vectors.md G1) and R78 does not define the form: that the notation has it, with
spaces around the `x`, and what it stands for, is the model's choice (log entry 15). -/
def parseBytePiece (pages : Nat) (cs : List Char) : Option (List Nat) :=
  match splitSpaces [] cs with
  | [b] => do return [← parseNumber b]
  | [b, ['x'], n] => do return List.replicate (← parseCount pages n) (← parseNumber b)
  | _ => none

/-- A byte list's bytes, the braces taken off (R78, log entry 15). -/
def parseBytes (pages : Nat) (cs : List Char) : Option (List Nat) :=
  match trimSpaces cs with
  | [] => some []
  | cs => ((splitCommas false [] cs).mapM (parseBytePiece pages)).map List.flatten

/-- An operand. -/
def parseArg (pages : Nat) (cs : List Char) : Option AsmArg :=
  if cs = ['i', 'n', 'v'] then some .inv
  else if cs.head? = some openBrace ∧ cs.getLast? = some closeBrace then
    (parseBytes pages (cs.drop 1).dropLast).map .bytes
  else (parseNumber cs).map .num

/-- A line of assembler text: a mnemonic followed by comma-separated operands (R78), on an instance of
`pages` pages. -/
def parseLine (pages : Nat) (cs : List Char) : Option (AsmOp × List AsmArg) := do
  let cs := trimSpaces cs
  let name := cs.takeWhile (· ≠ ' ')
  let op ← AsmOp.all.find? fun op => op.text.toList == name
  match trimSpaces (cs.drop name.length) with
  | [] => return (op, [])
  | rest => return (op, ← (splitCommas false [] rest).mapM (parseArg pages))

/-- The commands a line of text stands for, on an instance of `pages` pages. -/
def assembleText (pages : Nat) (text : String) : Option (List Instr) := do
  let (op, args) ← parseLine pages text.toList
  assembleLine pages op args

end Sys2Proof.Machine
end

