-- ==== Sys2Proof/Safety.lean ====
section
/-! DEFINITION. What a safe run is, in the terms claims use: when the block is ready, the invariant of the state, the
single-owner input, and what the rules let anyone say about the panel (spec/20_memory.md R42, R49, R50; the panel is
no state of the block, 10_state.md R27: its known contents are a function of the transactions handed over). -/

namespace Sys2Proof

/-- The bound of 42_transport_ops.md R140 on a transaction: `1 <= length(bytes) <= 128 - col`. -/
def Transaction.bounded : Transaction → Prop
  | .writeRegion _ col bytes => 1 ≤ bytes.length ∧ bytes.length ≤ 128 - col.toNat
  | .setContrast _ => True
  | .scrollMode _ => True

/-- Whether a transaction is a scroll command (42_transport_ops.md R146). -/
def Transaction.isScroll : Transaction → Bool
  | .scrollMode _ => true
  | .writeRegion _ _ _ | .setContrast _ => false

/-- The commands that can change `FB` (41_framebuffer_ops.md). -/
def Instr.writesFb : Instr → Bool
  | .fbSetPage _ _ | .fbSetPixel _ _ _ _ | .fbBlit _ _ _ _ _ _ | .fbSetBuffer _ => true
  | .fbGetPage _ | .fbGetPixel _ _ _ | .fbGetBuffer => false
  | .tmPush _ _ _ | .tmSetContrast _ | .tmSetScrollMode _ => false

/-- The transaction is of the kind this command emits (42_transport_ops.md R143, R145, R146, R147). -/
def Instr.emits : Instr → Transaction → Bool
  | .tmPush page col _, .writeRegion page' col' _ => page == page' && col == col'
  | .tmSetContrast level, .setContrast level' => level == level'
  | .tmSetScrollMode selector, .scrollMode selector' => selector == selector'
  | _, _ => false

end Sys2Proof

namespace Sys2Proof.Machine

/-- The block can fire as soon as a command is present: no construction asked for, a legal configuration, no transaction pending
(60_exceptions.md R169). -/
structure State.Ready (s : State) : Prop where
  noReset : s.resetRequest = none
  legal   : s.cfg.legal = true
  idle    : s.tmPhase = .idle

/-- Every command word on the channel is the owner's (60_exceptions.md R168). -/
abbrev State.SingleOwner (s : State) : Prop := sentByOwner s.channel = true

/-- A construction that is asked for has legal arguments (70_reset_and_hazards.md R181). -/
abbrev State.LegalRequest (s : State) : Prop := ∀ a, s.resetRequest = some a → a.legal = true

/-- What holds of every state of an instance: a legal configuration (10_state.md R20); `FB` in its canonical form and
inside `cfg.PAGES*128` bytes (R24, 20_memory.md R40); every transaction, handed over or pending, within its bound and
for the selected backing (42_transport_ops.md R140, R141); every response of the shape R64 allows; the owner has
read no more responses than were sent (60_exceptions.md R169). -/
structure State.Inv (s : State) : Prop where
  legal     : s.cfg.legal = true
  fbWf      : s.fb.wf
  fbBelow   : s.fb.below s.fbSize
  histTo    : ∀ e ∈ s.hist, e.backing = s.cfg.transportKind ∧ e.txn.bounded
  pendingTo : ∀ bk txn, s.tmPhase = .pending bk txn → bk = s.cfg.transportKind ∧ txn.bounded
  responses : ∀ r ∈ s.responses, r.wf
  received  : s.received ≤ s.responses.length

/-! ## The panel -/

/-- What is known of one byte of panel memory. -/
inductive PanelByte where
  /-- Nothing (20_memory.md R42, R50; 70_reset_and_hazards.md R180). -/
  | unknown
  /-- The byte an acknowledged push left there (20_memory.md R49), the panel having been brought up (log entry 23). -/
  | known (b : Byte)
  /-- Nothing, nor will a later push tell: the panel may be scrolling (70_reset_and_hazards.md R186). -/
  | scrolling
deriving DecidableEq, Repr

/-- What is known of any panel byte right after a construction, these transactions having been handed over before it:
nothing (70_reset_and_hazards.md R180), and nothing for good if one of them was a scroll command, since no rule says
that a reset stops the panel's scrolling (the model's choice, log entry 21). -/
def PanelByte.before (earlier : List PastEntry) : PanelByte :=
  if earlier.any fun e => e.txn.isScroll then .scrolling else .unknown

/-- What a transaction with its outcome makes known of the panel byte at linear address `a`. -/
def PanelByte.after (a : Nat) (p : PanelByte) (e : HistEntry) : PanelByte :=
  match p, e.txn with
  | .scrolling, _ => .scrolling
  | p, .setContrast _ => p
  | _, .scrollMode _ => .scrolling
  | p, .writeRegion page col bytes =>
    if pageAddress page + col.toNat ≤ a ∧ a < pageAddress page + col.toNat + bytes.length then
      match e.outcome with
      | .ack => .known (bytes.getD (a - (pageAddress page + col.toNat)) 0)
      | .fail => .unknown
    else p

/-- What is known of the panel byte at linear address `a`: what the earlier instances left of it, then the completed
transactions in order, then the pending one. A pending transaction may have reached the panel in part, so until its
outcome it is counted as a failed one (the model's choice, log entry 22). An acknowledged push counts from the
construction on: that the selected backing and the panel controller have been brought up before it, outside the block
(70_reset_and_hazards.md R183, step 2), is presumed and not checked (the model's choice, log entry 23). -/
def State.panelByte (s : State) (a : Nat) : PanelByte :=
  let p := s.hist.foldl (PanelByte.after a) (PanelByte.before s.earlier)
  match s.tmPhase with
  | .idle => p
  | .pending bk txn => p.after a { backing := bk, txn := txn, outcome := .fail }

end Sys2Proof.Machine
end

