-- ==== Sys2Proof/Certificates/Slice0/Obligations.lean ====
section
/-! DEFINITION. The statements for the provers. Each docstring names the rule of spec/ that the statement formalises; a
statement that rests on a choice of the model says so and names the log entry. `FB` is read one byte at a time with
`Memory.read`; where a store is read back, the canonical form `Memory.wf` of the memory is a premise, which is part of
the invariant `State.Inv` (`StepKeepsTheInvariant`). `exec` is a command's effect as its own rule gives it; the step
takes the command's words off the channel, which R61 adds for every command, before it (`StepRunsTheDecodedCommand`, log
entry 8). Where a statement concludes that a step is taken and has no premise `State.SingleOwner`, another agent's words
may stand on the channel, and that they do not matter until they are read is the model's reading of R168 (log entry 10);
each such statement names it. -/

open Sys2Proof Sys2Proof.Machine

/-! ## Encoding and decoding -/

/-- Words written out from the tables of R65 to R71 (some of them the spec's own examples) decode to the commands they
stand for, with the lengths of R61; reserved encodings are rejected by name. -/
def Obligations.HandWrittenWordsDecode : Prop :=
  decode 8 [0x10000003] = .command (.fbGetPage 3) 1 ∧
  decode 1 (0x20000000 :: List.replicate 32 0x03020100) =
    .command (.fbSetPage 0 (List.replicate 32 [0x00, 0x01, 0x02, 0x03]).flatten) 33 ∧
  decode 8 [0x3800A005] = .command (.fbGetPixel 5 10 true) 1 ∧
  decode 8 [0x4400A005] = .command (.fbSetPixel 5 10 true false) 1 ∧
  decode 8 [0x50003000, 0x00002008, 0x00000180] = .command (.fbBlit 0 3 8 2 false [0x80, 0x01]) 3 ∧
  decode 8 [0x60000000] = .command .fbGetBuffer 1 ∧
  decode 1 (0x70000000 :: List.replicate 32 0x80402010) =
    .command (.fbSetBuffer (List.replicate 32 [0x10, 0x20, 0x40, 0x80]).flatten) 33 ∧
  decode 8 [0x80147800] = .command (.tmPush 0 120 20) 1 ∧
  decode 8 [0x9000007F] = .command (.tmSetContrast 0x7F) 1 ∧
  decode 8 [0xA000002F] = .command (.tmSetScrollMode 0x2F) 1 ∧
  decode 8 [0x00000000] = .illegal .reservedOpcode 1 ∧
  decode 8 [0x3400A005] = .illegal .reservedBit 1 ∧
  decode 8 [0x51000000, 0x00001007, 0x00000000] = .illegal .reservedBit 3

/-- Decoding an encoded command gives the command back, every operand and every payload byte, whatever words follow it
on the channel; and its length is that of R61's table. -/
def Obligations.DecodeOfEncodeIsTheCommand : Prop :=
  ∀ (pages : Nat) (i : Instr) (rest : List Word), i.wf pages = true →
    decode pages (encode i ++ rest) = .command i (i.lengthWords pages)

/-- The other direction: what decodes to a command is that command's encoding, the bytes that fill a payload's last word
apart ("ignored on receipt", R63): the header words are the words read, every payload byte is the byte in R63's place of
the words read after them, and where no byte fills the last word the encoding is the words read. The command is well
formed and as long as R61's table says. -/
def Obligations.DecodedWordsAreTheEncoding : Prop :=
  ∀ (pages : Nat) (ws : List Word) (i : Instr) (n : Nat), decode pages ws = .command i n →
    i.wf pages = true ∧ n = i.lengthWords pages ∧ n ≤ ws.length ∧ (encode i).length = n ∧
    (encode i).take (n - ceil4 i.payload.length) = ws.take (n - ceil4 i.payload.length) ∧
    (∀ k, ∀ h : k < i.payload.length,
      ((ws.drop (n - ceil4 i.payload.length)).getD (k / 4) 0).extractLsb' (8 * (k % 4)) 8 = i.payload[k]) ∧
    (i.payload.length % 4 = 0 → encode i = ws.take n)

/-- R71: a word is the named command exactly when `(word & mask) == match`, with the match and mask of each row (for
FB_BLIT those of word 1 too), enough words having come for the payload. -/
def Obligations.OpcodeMapSelectsTheCommand : Prop :=
  ∀ (pages : Nat) (w : Word) (tail : List Word),
    (w &&& 0xFFFFFF00 = 0x10000000 ↔ ∃ page n, decode pages (w :: tail) = .command (.fbGetPage page) n) ∧
    (32 ≤ tail.length →
      (w &&& 0xFFFFFF00 = 0x20000000 ↔ ∃ page d n, decode pages (w :: tail) = .command (.fbSetPage page d) n)) ∧
    (w &&& 0xF7000000 = 0x30000000 ↔ ∃ x y inv n, decode pages (w :: tail) = .command (.fbGetPixel x y inv) n) ∧
    (w &&& 0xF3000000 = 0x40000000 ↔ ∃ x y v inv n, decode pages (w :: tail) = .command (.fbSetPixel x y v inv) n) ∧
    (∀ w1 rest, tail = w1 :: rest →
      (((w1.extractLsb' 0 12).toNat + 7) / 8 * (w1.extractLsb' 12 12).toNat + 3) / 4 ≤ rest.length →
      (w &&& 0xF7000000 = 0x50000000 ∧ w1 &&& 0xFF000000 = 0x00000000 ↔
        ∃ xpos ypos width height inv d n,
          decode pages (w :: tail) = .command (.fbBlit xpos ypos width height inv d) n)) ∧
    (w &&& 0xFFFFFFFF = 0x60000000 ↔ ∃ n, decode pages (w :: tail) = .command .fbGetBuffer n) ∧
    (pages * 32 ≤ tail.length →
      (w &&& 0xFFFFFFFF = 0x70000000 ↔ ∃ d n, decode pages (w :: tail) = .command (.fbSetBuffer d) n)) ∧
    (w &&& 0xFF000000 = 0x80000000 ↔ ∃ page col count n, decode pages (w :: tail) = .command (.tmPush page col count) n) ∧
    (w &&& 0xFFFFFF00 = 0x90000000 ↔ ∃ level n, decode pages (w :: tail) = .command (.tmSetContrast level) n) ∧
    (w &&& 0xFFFFFF00 = 0xA0000000 ↔ ∃ selector n, decode pages (w :: tail) = .command (.tmSetScrollMode selector) n)

/-- R63: byte `k` of a packed list is bits `[8*(k mod 4)+7 : 8*(k mod 4)]` of word `k div 4`, in `ceil4(n)` words; the
unused high bytes of the last word are sent as zero, and ignored on receipt. -/
def Obligations.BytesArePackedLeastSignificantFirst : Prop :=
  ∀ d : List Byte,
    (packBytes d).length = (d.length + 3) / 4 ∧
    (∀ k, ∀ h : k < d.length, ((packBytes d).getD (k / 4) 0).extractLsb' (8 * (k % 4)) 8 = d[k]) ∧
    (∀ k, d.length ≤ k → k < 4 * ((d.length + 3) / 4) →
      ((packBytes d).getD (k / 4) 0).extractLsb' (8 * (k % 4)) 8 = 0) ∧
    (∀ ws : List Word, ws.length = (d.length + 3) / 4 →
      (∀ k, ∀ h : k < d.length, (ws.getD (k / 4) 0).extractLsb' (8 * (k % 4)) 8 = d[k]) → unpackBytes d.length ws = d)

/-- R64: the layout of a response's status word, with the status codes of R160, and the data words after it. -/
def Obligations.ResponseWordLayout : Prop :=
  ∀ r : Response,
    r.words = r.statusWord :: packBytes r.data ∧
    (r.statusWord.extractLsb' 0 2).toNat =
      (match r.status with | .ok => 0 | .eprecond => 1 | .illegal => 2 | .busfail => 3) ∧
    r.statusWord.getLsbD 2 = r.pix ∧
    r.statusWord.extractLsb' 3 29 = 0

/-- R79, every pseudo-instruction: `tm.pushall` is `tm.push p, 0, 128` for every page in order, on an instance of any
number of pages that fits a page field; `tm.pushpage`, `fb.clear`, `fb.clrpage` and `fb.clrpix` are the commands its
table gives. And, in text, R78's example: `fb.setpix 5, 10, 1` is 0x4400A005, a trailing `inv` sets the inversion flag,
a number may be hexadecimal. -/
def Obligations.AssemblerExpandsAsWritten : Prop :=
  (assembleText 8 "fb.setpix 5, 10, 1").map (·.flatMap encode) = some [0x4400A005] ∧
  (assembleText 8 "fb.getpix 0x5, 0x0A, inv").map (·.flatMap encode) = some [0x3800A005] ∧
  (∀ pages, pages ≤ 256 → assembleLine pages .pushall [] =
    some ((List.range pages).map fun p => .tmPush (BitVec.ofNat 8 p) 0 128)) ∧
  (∀ pages, assembleLine pages .clear [] = some [.fbSetBuffer (List.replicate (pages * 128) 0)]) ∧
  (∀ pages p, p < 256 → assembleLine pages .clrpage [.num p] =
    some [.fbSetPage (BitVec.ofNat 8 p) (List.replicate 128 0)]) ∧
  (∀ pages x y, x < 4096 → y < 4096 → assembleLine pages .clrpix [.num x, .num y] =
    some [.fbSetPixel (BitVec.ofNat 12 x) (BitVec.ofNat 12 y) false false]) ∧
  (∀ pages p, p < 256 → assembleLine pages .pushpage [.num p] = some [.tmPush (BitVec.ofNat 8 p) 0 128])

/-! ## The bit functions -/

/-- R100: `r[i] = b[7 - i]`, an involution, with the rule's examples. -/
def Obligations.RotateByteReversesTheBits : Prop :=
  (∀ (b : Byte) (i : Nat), i < 8 → (rotateByte b).getLsbD i = b.getLsbD (7 - i)) ∧
  (∀ b : Byte, rotateByte (rotateByte b) = b) ∧
  (∀ b : Byte, (∀ i, i < 8 → b.getLsbD i = b.getLsbD (7 - i)) → rotateByte b = b) ∧
  rotateByte 0x00 = 0x00 ∧ rotateByte 0xFF = 0xFF ∧ rotateByte 0x81 = 0x81 ∧ rotateByte 0x5A = 0x5A ∧
  rotateByte 0xA5 = 0xA5 ∧ rotateByte 0x01 = 0x80 ∧ rotateByte 0x12 = 0x48

/-- R101: `copy_bit` replaces one bit, set or cleared, and keeps every other. -/
def Obligations.CopyBitReplacesOneBit : Prop :=
  (∀ (src dst : Byte) (sb db i : Nat), sb < 8 → db < 8 → i < 8 →
    (copyBit src sb dst db).getLsbD i = if i = db then src.getLsbD sb else dst.getLsbD i) ∧
  copyBit 0x04 2 0x00 7 = 0x80 ∧ copyBit 0x00 0 0xFF 3 = 0xF7

/-- R102: `invert` complements every byte, keeps the length, and is an involution; and it is what `inv = 1` does to the
source bitmap of a blit. -/
def Obligations.InvertComplementsEveryByte : Prop :=
  (∀ buf : List Byte, (invert buf).length = buf.length ∧
    (∀ k, ∀ h : k < buf.length, ((invert buf).getD k 0).toNat = 255 - buf[k].toNat) ∧
    invert (invert buf) = buf) ∧
  (∀ (xpos ypos width height : Coord) (src : List Byte) (s : State),
    exec (.fbBlit xpos ypos width height true src) s = exec (.fbBlit xpos ypos width height false (invert src)) s) ∧
  invert [] = [] ∧ invert [0x00, 0xFF, 0x5A] = [0xFF, 0x00, 0xA5]

/-- R103: `pixbit` mirrors the bit within the byte when flipped, because to set or clear bit `r` between two calls of
`rotate_byte` is to set or clear bit `7 - r`; the page `y div 8` and the column `x` are the same for both values of
`cfg.FLIP`. -/
def Obligations.PixbitMirrorsTheBit : Prop :=
  (∀ r : Nat, r < 8 → pixbit false r = r ∧ pixbit true r = 7 - r) ∧
  (∀ (w src : Byte) (sb r : Nat), sb < 8 → r < 8 →
    rotateByte (copyBit src sb (rotateByte w) r) = copyBit src sb w (7 - r)) ∧
  (∀ (flip : Bool) (fb : Memory) (x y : Nat),
    pixRead flip fb x y = (fb.read (y / 8 * 128 + x)).getLsbD (if flip then 7 - y % 8 else y % 8)) ∧
  pixbit true 0 = 7 ∧ pixbit true 7 = 0 ∧ 10 / 8 = 1 ∧ pixbit true (10 % 8) = 5

/-- R104: `PixWrite` changes exactly bit `pixbit(y mod 8)` of byte `(y div 8)*128 + x`, `PixRead` returns exactly that
bit, and a write is read back; with the rule's example. -/
def Obligations.PixWriteChangesOneBit : Prop :=
  (pixWrite false [] 5 10 true).read 133 = 0x04 ∧
  ∀ (flip : Bool) (fb : Memory) (x y : Nat) (v : Bool), fb.wf → x < 128 →
    (∀ a, a ≠ y / 8 * 128 + x → (pixWrite flip fb x y v).read a = fb.read a) ∧
    (∀ k, k < 8 → ((pixWrite flip fb x y v).read (y / 8 * 128 + x)).getLsbD k =
      if k = pixbit flip (y % 8) then v else (fb.read (y / 8 * 128 + x)).getLsbD k) ∧
    pixRead flip fb x y = (fb.read (y / 8 * 128 + x)).getLsbD (pixbit flip (y % 8)) ∧
    pixRead flip (pixWrite flip fb x y v) x y = v

/-! ## The framebuffer commands -/

/-- R110, whole: FB_GET_PAGE answers the 128 raw bytes of the page, or 128 zero bytes for a page outside the buffer,
status OK always, in a status word and 32 data words, and changes nothing but the response channel. -/
def Obligations.GetPageAnswersTheRawPage : Prop :=
  ∀ (page : Byte) (s : State),
    encode (.fbGetPage page) = [0x10000000 ||| page.setWidth 32] ∧
    (page.toNat < s.cfg.pages.toNat → exec (.fbGetPage page) s =
      .next { s with responses := s.responses ++
        [⟨.ok, false, (List.range 128).map fun c => s.fb.read (page.toNat * 128 + c)⟩] }) ∧
    (∀ t r, exec (.fbGetPage page) s = .next t → t.responses = s.responses ++ [r] → r.words.length = 1 + 32) ∧
    (s.cfg.pages.toNat ≤ page.toNat → exec (.fbGetPage page) s =
      .next { s with responses := s.responses ++ [⟨.ok, false, List.replicate 128 0x00⟩] })

/-- R111, whole: FB_SET_PAGE stores the 128 bytes raw at the page, or drops them, status OK always; no other byte
changes, and nothing else but the response channel. -/
def Obligations.SetPageStoresTheRawPage : Prop :=
  ∀ (page : Byte) (d : List Byte) (s : State), d.length = 128 → s.fb.wf →
    encode (.fbSetPage page d) = (0x20000000 ||| page.setWidth 32) :: packBytes d ∧
    (encode (.fbSetPage page d)).length = 33 ∧
    (page.toNat < s.cfg.pages.toNat → ∃ fb, exec (.fbSetPage page d) s =
        .next { s with fb := fb, responses := s.responses ++ [⟨.ok, false, []⟩] } ∧
      (∀ c, ∀ h : c < d.length, fb.read (pageAddress page + c) = d[c]) ∧
      (∀ a, a < pageAddress page ∨ pageAddress page + 128 ≤ a → fb.read a = s.fb.read a)) ∧
    (s.cfg.pages.toNat ≤ page.toNat → exec (.fbSetPage page d) s =
      .next { s with responses := s.responses ++ [⟨.ok, false, []⟩] })

/-- R112, whole: FB_GET_PIXEL answers the pixel's bit, complemented when `inv`, or `pix = 0` out of bounds whatever `inv`
is, status OK always, and changes nothing but the response channel. -/
def Obligations.GetPixelAnswersTheBit : Prop :=
  ∀ (x y : Coord) (inv : Bool) (s : State),
    encode (.fbGetPixel x y inv) =
      [0x30000000 ||| (BitVec.ofBool inv).setWidth 32 <<< 27 ||| y.setWidth 32 <<< 12 ||| x.setWidth 32] ∧
    (x.toNat < 128 → y.toNat < 8 * s.cfg.pages.toNat → exec (.fbGetPixel x y inv) s =
      .next { s with responses := s.responses ++
        [⟨.ok, (s.fb.read (y.toNat / 8 * 128 + x.toNat)).getLsbD
          (if s.cfg.flip then 7 - y.toNat % 8 else y.toNat % 8) ^^ inv, []⟩] }) ∧
    (128 ≤ x.toNat ∨ 8 * s.cfg.pages.toNat ≤ y.toNat → exec (.fbGetPixel x y inv) s =
      .next { s with responses := s.responses ++ [⟨.ok, false, []⟩] })

/-- R113, whole: FB_SET_PIXEL changes one bit of `FB` to `val ^ inv`, or drops the write out of bounds, status OK always;
writing the value the pixel holds leaves `FB` unchanged; nothing else changes but the response channel. -/
def Obligations.SetPixelWritesOneBit : Prop :=
  ∀ (x y : Coord) (val inv : Bool) (s : State), s.fb.wf →
    encode (.fbSetPixel x y val inv) =
      [0x40000000 ||| (BitVec.ofBool inv).setWidth 32 <<< 27 ||| (BitVec.ofBool val).setWidth 32 <<< 26 |||
        y.setWidth 32 <<< 12 ||| x.setWidth 32] ∧
    (x.toNat < 128 → y.toNat < 8 * s.cfg.pages.toNat → ∃ fb, exec (.fbSetPixel x y val inv) s =
        .next { s with fb := fb, responses := s.responses ++ [⟨.ok, false, []⟩] } ∧
      (∀ a, a ≠ pixelAddress x.toNat y.toNat → fb.read a = s.fb.read a) ∧
      (∀ k, k < 8 → (fb.read (pixelAddress x.toNat y.toNat)).getLsbD k =
        if k = (if s.cfg.flip then 7 - y.toNat % 8 else y.toNat % 8) then val ^^ inv
        else (s.fb.read (pixelAddress x.toNat y.toNat)).getLsbD k) ∧
      (pixRead s.cfg.flip s.fb x.toNat y.toNat = (val ^^ inv) → fb = s.fb)) ∧
    (128 ≤ x.toNat ∨ 8 * s.cfg.pages.toNat ≤ y.toNat → exec (.fbSetPixel x y val inv) s =
      .next { s with responses := s.responses ++ [⟨.ok, false, []⟩] })

/-- R114, whole. The two header words of a blit and its length (payload at its full size whatever the width). With
`width mod 8 != 0` it ends in EPRECOND with no state change. Else it replaces every in-bounds pixel of the rectangle by
its source bit (bit 7 of a byte leftmost, complemented when `inv`), keeps every other pixel, every byte that holds no
pixel of the rectangle and every address outside the buffer, and answers OK; a blit of no columns or no rows changes
nothing. -/
def Obligations.BlitReplacesTheRectangle : Prop :=
  ∀ (xpos ypos width height : Coord) (inv : Bool) (src : List Byte) (s : State),
    src.length = (width.toNat + 7) / 8 * height.toNat → s.fb.wf →
    encode (.fbBlit xpos ypos width height inv src) =
      (0x50000000 ||| (BitVec.ofBool inv).setWidth 32 <<< 27 ||| ypos.setWidth 32 <<< 12 ||| xpos.setWidth 32) ::
        (height.setWidth 32 <<< 12 ||| width.setWidth 32) :: packBytes src ∧
    (encode (.fbBlit xpos ypos width height inv src)).length =
      2 + ((width.toNat + 7) / 8 * height.toNat + 3) / 4 ∧
    (width.toNat % 8 ≠ 0 → exec (.fbBlit xpos ypos width height inv src) s =
      .next { s with responses := s.responses ++ [⟨.eprecond, false, []⟩] }) ∧
    (width.toNat % 8 = 0 → ∃ fb, exec (.fbBlit xpos ypos width height inv src) s =
        .next { s with fb := fb, responses := s.responses ++ [⟨.ok, false, []⟩] } ∧
      (∀ x y, x < 128 → y < 8 * s.cfg.pages.toNat → pixRead s.cfg.flip fb x y =
        if xpos.toNat ≤ x ∧ x < xpos.toNat + width.toNat ∧ ypos.toNat ≤ y ∧ y < ypos.toNat + height.toNat then
          (src.getD ((y - ypos.toNat) * (width.toNat / 8) + (x - xpos.toNat) / 8) 0).getLsbD
            (7 - (x - xpos.toNat) % 8) ^^ inv
        else pixRead s.cfg.flip s.fb x y) ∧
      (∀ a, (∀ i < width.toNat, ∀ j < height.toNat, a ≠ pixelAddress (xpos.toNat + i) (ypos.toNat + j)) →
        fb.read a = s.fb.read a) ∧
      (∀ a, s.cfg.pages.toNat * 128 ≤ a → fb.read a = s.fb.read a) ∧
      (width.toNat = 0 ∨ height.toNat = 0 → fb = s.fb))

/-- R115, whole: FB_GET_BUFFER answers the `cfg.PAGES*128` raw bytes in address order, in a status word and
`cfg.PAGES*32` data words, all zero while nothing has been written, and changes nothing but the response channel. -/
def Obligations.GetBufferAnswersTheWholeBuffer : Prop :=
  ∀ s : State,
    encode .fbGetBuffer = [0x60000000] ∧
    exec .fbGetBuffer s = .next { s with responses := s.responses ++
      [⟨.ok, false, (List.range (s.cfg.pages.toNat * 128)).map s.fb.read⟩] } ∧
    (∀ t r, exec .fbGetBuffer s = .next t → t.responses = s.responses ++ [r] →
      r.words.length = 1 + s.cfg.pages.toNat * 32) ∧
    (s.fb = [] → exec .fbGetBuffer s = .next { s with responses := s.responses ++
      [⟨.ok, false, List.replicate (s.cfg.pages.toNat * 128) 0x00⟩] })

/-- R116, whole: FB_SET_BUFFER stores the `cfg.PAGES*128` bytes raw in address order, touches no other address, and
changes nothing else but the response channel; with every byte 0xFF every pixel reads 1, for both values of `cfg.FLIP`;
and with the data of an earlier FB_GET_BUFFER it restores `FB` exactly, whatever was done in between on an instance of
the same `cfg.PAGES`. -/
def Obligations.SetBufferStoresTheWholeBuffer : Prop :=
  (∀ (d : List Byte) (s : State), d.length = s.cfg.pages.toNat * 128 → s.fb.wf →
    encode (.fbSetBuffer d) = 0x70000000 :: packBytes d ∧
    (encode (.fbSetBuffer d)).length = 1 + s.cfg.pages.toNat * 32 ∧
    ∃ fb, exec (.fbSetBuffer d) s = .next { s with fb := fb, responses := s.responses ++ [⟨.ok, false, []⟩] } ∧
      (∀ k, ∀ h : k < d.length, fb.read k = d[k]) ∧
      (∀ a, s.cfg.pages.toNat * 128 ≤ a → fb.read a = s.fb.read a) ∧
      (d = List.replicate (s.cfg.pages.toNat * 128) 0xFF →
        ∀ x y, x < 128 → y < 8 * s.cfg.pages.toNat → pixRead s.cfg.flip fb x y = true)) ∧
  (∀ (s u : State), s.fb.wf → s.fb.below s.fbSize → u.fb.wf → u.fb.below u.fbSize → u.cfg.pages = s.cfg.pages →
    ∃ t data v, exec .fbGetBuffer s = .next t ∧ t.responses = s.responses ++ [⟨.ok, false, data⟩] ∧
      exec (.fbSetBuffer data) u = .next v ∧ v.fb = s.fb)

/-- R117: bit `b` of byte `c` of page `p`, read through the page port or the bulk port, is pixel `(c, 8*p + r)` read
through the pixel port, with `r = b`, or `7 - b` when flipped. It holds in every state, so at once after any write. -/
def Obligations.PagePortAndPixelPortAgree : Prop :=
  ∀ (s : State) (page : Byte) (c b : Nat), page.toNat < s.cfg.pages.toNat → c < 128 → b < 8 →
    ∃ t u v data whole pix,
      exec (.fbGetPage page) s = .next t ∧ t.responses = s.responses ++ [⟨.ok, false, data⟩] ∧
      exec .fbGetBuffer s = .next v ∧ v.responses = s.responses ++ [⟨.ok, false, whole⟩] ∧
      exec (.fbGetPixel (BitVec.ofNat 12 c) (BitVec.ofNat 12 (8 * page.toNat + if s.cfg.flip then 7 - b else b)) false) s
        = .next u ∧ u.responses = s.responses ++ [⟨.ok, pix, []⟩] ∧
      (data.getD c 0).getLsbD b = pix ∧ (whole.getD (page.toNat * 128 + c) 0).getLsbD b = pix

/-- R44: a page written through the page port is what the pixel port reads next; the bytes are raw, so that with
`cfg.FLIP = 1` the rows of the page are mirrored (R188). -/
def Obligations.PageWriteIsSeenByThePixelPort : Prop :=
  ∀ (s : State) (page : Byte) (d : List Byte) (c r : Nat), d.length = 128 → s.fb.wf →
    page.toNat < s.cfg.pages.toNat → c < 128 → r < 8 →
    ∃ t, exec (.fbSetPage page d) s = .next t ∧
      exec (.fbGetPixel (BitVec.ofNat 12 c) (BitVec.ofNat 12 (8 * page.toNat + r)) false) t =
        .next { t with responses := t.responses ++
          [⟨.ok, (d.getD c 0).getLsbD (if s.cfg.flip then 7 - r else r), []⟩] }

/-- The pixel round trip at the ports (R104, R112, R113): a pixel set or cleared in bounds is read back, and every other
pixel of the buffer answers as before. -/
def Obligations.PixelRoundTripAtThePorts : Prop :=
  ∀ (s : State) (x y x' y' : Coord) (val inv inv' : Bool), s.fb.wf → x.toNat < 128 → y.toNat < 8 * s.cfg.pages.toNat →
    x'.toNat < 128 → y'.toNat < 8 * s.cfg.pages.toNat →
    ∃ t, exec (.fbSetPixel x y val inv) s = .next t ∧
      exec (.fbGetPixel x y inv') t =
        .next { t with responses := t.responses ++ [⟨.ok, val ^^ inv ^^ inv', []⟩] } ∧
      ((x', y') ≠ (x, y) → ∃ u v pix, exec (.fbGetPixel x' y' inv') t = .next u ∧
        u.responses = t.responses ++ [⟨.ok, pix, []⟩] ∧
        exec (.fbGetPixel x' y' inv') s = .next v ∧ v.responses = s.responses ++ [⟨.ok, pix, []⟩])

/-- R48: a read through any port changes nothing but the response channel, and reading twice gives the same answer. -/
def Obligations.ReadsHaveNoSideEffect : Prop :=
  ∀ (i : Instr) (s : State),
    (∃ page, i = .fbGetPage page) ∨ (∃ x y inv, i = .fbGetPixel x y inv) ∨ i = .fbGetBuffer →
    ∃ r, exec i s = .next { s with responses := s.responses ++ [r] } ∧
      exec i { s with responses := s.responses ++ [r] } = .next { s with responses := s.responses ++ [r, r] }

/-! ## The transport commands -/

/-- R143, whole: TM_PUSH sends nothing and answers OK for a page or column out of range or a count of 0; else it hands
the backing `cfg.TRANSPORT_KIND` the bytes of `FB` at `page`, `col ..`, raw and cut at column 127, and answers OK or
BUSFAIL when the outcome comes back; `FB` and everything else unchanged. That the outcome, the return to Idle and the
answer are a second step, the backing's, is the model's reading (log entry 16).
Another agent's words that are not read by the step do not matter, which is the model's reading too (log entry 10). -/
def Obligations.PushSendsTheClampedRegion : Prop :=
  ∀ (page col count : Byte) (s : State),
    encode (.tmPush page col count) =
      [0x80000000 ||| count.setWidth 32 <<< 16 ||| col.setWidth 32 <<< 8 ||| page.setWidth 32] ∧
    (s.cfg.pages.toNat ≤ page.toNat ∨ 128 ≤ col.toNat ∨ count.toNat = 0 → exec (.tmPush page col count) s =
      .next { s with responses := s.responses ++ [⟨.ok, false, []⟩] }) ∧
    (page.toNat < s.cfg.pages.toNat → col.toNat < 128 → count.toNat ≠ 0 →
      ∃ txn t, txn = .writeRegion page col ((List.range (min count.toNat (128 - col.toNat))).map fun k =>
          s.fb.read (page.toNat * 128 + col.toNat + k)) ∧
        t = { s with tmPhase := .pending s.cfg.transportKind txn } ∧
        exec (.tmPush page col count) s = .next t ∧
        (s.resetRequest = none → s.cfg.legal = true → ∃ o n, step t =
          .next { s with
            tmPhase := .idle
            hist := s.hist ++ [⟨s.cfg.transportKind, txn, o⟩]
            draws := n
            responses := s.responses ++ [⟨if o = .ack then .ok else .busfail, false, []⟩] }))

/-- R145, whole: TM_SET_CONTRAST hands the backing SetContrast(level), every level unchanged, and answers OK or BUSFAIL
when the outcome comes back; nothing else changes, so no level is stored. That the outcome, the return to Idle and the
answer are a second step, the backing's, is the model's reading (log entry 16).
Another agent's words that are not read by the step do not matter, which is the model's reading too (log entry 10). -/
def Obligations.SetContrastForwardsTheLevel : Prop :=
  ∀ (level : Byte) (s : State),
    encode (.tmSetContrast level) = [0x90000000 ||| level.setWidth 32] ∧
    ∃ t, t = { s with tmPhase := .pending s.cfg.transportKind (.setContrast level) } ∧
      exec (.tmSetContrast level) s = .next t ∧
      (s.resetRequest = none → s.cfg.legal = true → ∃ o n, step t =
        .next { s with
          tmPhase := .idle
          hist := s.hist ++ [⟨s.cfg.transportKind, .setContrast level, o⟩]
          draws := n
          responses := s.responses ++ [⟨if o = .ack then .ok else .busfail, false, []⟩] })

/-- R146: TM_SET_SCROLL_MODE hands the backing ScrollMode(selector), every selector unchanged, and answers OK or BUSFAIL
when the outcome comes back; nothing else changes, so no selector is stored. That the outcome, the return to Idle and
the answer are a second step, the backing's, is the model's reading (log entry 16).
Another agent's words that are not read by the step do not matter, which is the model's reading too (log entry 10). -/
def Obligations.SetScrollModeForwardsTheSelector : Prop :=
  ∀ (selector : Byte) (s : State),
    encode (.tmSetScrollMode selector) = [0xA0000000 ||| selector.setWidth 32] ∧
    ∃ t, t = { s with tmPhase := .pending s.cfg.transportKind (.scrollMode selector) } ∧
      exec (.tmSetScrollMode selector) s = .next t ∧
      (s.resetRequest = none → s.cfg.legal = true → ∃ o n, step t =
        .next { s with
          tmPhase := .idle
          hist := s.hist ++ [⟨s.cfg.transportKind, .scrollMode selector, o⟩]
          draws := n
          responses := s.responses ++ [⟨if o = .ack then .ok else .busfail, false, []⟩] })

/-- R144 and R140: while a transaction is pending, the step is the backing's: the history gains the transaction with its
outcome, the phase is idle again, the command is answered OK on Ack and BUSFAIL on Fail, and nothing else changes: no
command is accepted, `FB` stays, nothing is retried. After a failed push the panel's copy of the region is unknown. That
these are one step of the backing's own is the model's reading (log entry 16), and so is the view of the panel (log
entry 13).
Another agent's words that are not read by the step do not matter, which is the model's reading too (log entry 10). -/
def Obligations.PendingTransactionCompletes : Prop :=
  ∀ (s : State) (bk : Backing) (txn : Transaction), s.resetRequest = none → s.cfg.legal = true →
    s.tmPhase = .pending bk txn →
    ∃ o n, step s = .next { s with
        tmPhase := .idle
        hist := s.hist ++ [⟨bk, txn, o⟩]
        draws := n
        responses := s.responses ++ [⟨if o = .ack then .ok else .busfail, false, []⟩] } ∧
      (∀ page col bytes a b, txn = .writeRegion page col bytes →
        page.toNat * 128 + col.toNat ≤ a → a < page.toNat * 128 + col.toNat + bytes.length →
        (s.complete bk txn .fail).panelByte a ≠ .known b)

/-- R141: every transaction, recorded or pending, goes to the backing `cfg.TRANSPORT_KIND`, and the other backing
receives none: a step between resets keeps it so. -/
def Obligations.TransactionsGoToTheSelectedBacking : Prop :=
  ∀ s t : State, s.resetRequest = none → step s = .next t →
    (∀ e ∈ s.hist, e.backing = s.cfg.transportKind) →
    (∀ bk txn, s.tmPhase = .pending bk txn → bk = s.cfg.transportKind) →
    t.cfg.transportKind = s.cfg.transportKind ∧
    (∀ e ∈ t.hist, e.backing = s.cfg.transportKind) ∧
    (∀ bk txn, t.tmPhase = .pending bk txn → bk = s.cfg.transportKind)

/-- R142: the backing is invisible to the owner. With the other value of `cfg.TRANSPORT_KIND` a command has the same
effect on `FB`, `pc` and the response, and hands the same transaction to the other backing; and for the same outcome
the completion is the same but for the `hist` entry's backing. That the completion is a second step, which a command
leaves pending, and that `pc` has advanced before a command's effect, is the model's reading (log entries 16 and 8).
Another agent's words that are not read by the step do not matter, which is the model's reading too (log entry 10). -/
def Obligations.BackingIsInvisibleToTheOwner : Prop :=
  (∀ (i : Instr) (s t : State) (k : Backing), exec i s = .next t →
    ∃ t', exec i { s with cfg := { s.cfg with transportKind := k } } = .next t' ∧
      t' = { t with cfg := { t.cfg with transportKind := k }, tmPhase := t'.tmPhase } ∧
      (t'.tmPhase = t.tmPhase ∨
        ∃ txn, t.tmPhase = .pending s.cfg.transportKind txn ∧ t'.tmPhase = .pending k txn)) ∧
  (∀ (s s' : State) (bk k : Backing) (txn : Transaction), s.resetRequest = none → s.cfg.legal = true →
    s.tmPhase = .pending bk txn →
    s' = { s with cfg := { s.cfg with transportKind := k }, tmPhase := .pending k txn } →
    (∃ o, step s = .next (s.complete bk txn o)) ∧ (∃ o, step s' = .next (s'.complete k txn o)) ∧
    ∀ o, s'.complete k txn o = { s.complete bk txn o with
      cfg := { s.cfg with transportKind := k }
      hist := s.hist ++ [⟨k, txn, o⟩] })

/-- R147: only the three transport commands hand over a transaction, at most one each, of their own kind; no command
writes the history itself; and construction hands over none. That the history gains the transaction in a later step, the
backing's, and not in the command's own is the model's reading of R140 (log entry 16). -/
def Obligations.OnlyTransportCommandsEmit : Prop :=
  (∀ (i : Instr) (s t : State), exec i s = .next t →
    t.hist = s.hist ∧
    (t.tmPhase = s.tmPhase ∨ ∃ txn, t.tmPhase = .pending s.cfg.transportKind txn ∧ i.emits txn = true)) ∧
  (∀ (a : ConstructionArgs) (t : State), construct a = .next t → t.hist = [] ∧ t.tmPhase = .idle)

/-- R53: transactions reach the history one at a time, in the order they were handed over, each complete before the next
is emitted. That a step from Idle leaves the history as it was, and that the record and the return to Idle are one later
step, the backing's, is the model's reading (log entry 16). -/
def Obligations.TransactionsCompleteInOrder : Prop :=
  ∀ s t : State, s.resetRequest = none → step s = .next t →
    (s.tmPhase = .idle → t.hist = s.hist) ∧
    (∀ bk txn, s.tmPhase = .pending bk txn → ∃ o, t.hist = s.hist ++ [⟨bk, txn, o⟩] ∧ t.tmPhase = .idle)

/-! ## Every command -/

/-- The frame of a command, whichever it is: `cfg`, `pc`, the channel, the history and the model's own counts and records
are unchanged by it; `FB` changes only under a command that writes it; at most one response is sent. That `pc` and the
channel do not change is the model's reading that the step takes the command's words, and advances `pc`, before the
command's effect (R23, R61; log entry 8); that the history does not change is its reading that the backing's own step
records the transaction (R140; log entry 16). -/
def Obligations.FrameOfEveryCommand : Prop :=
  ∀ (i : Instr) (s t : State), exec i s = .next t →
    t.cfg = s.cfg ∧ t.pc = s.pc ∧ t.channel = s.channel ∧ t.hist = s.hist ∧ t.draws = s.draws ∧
    t.resetRequest = s.resetRequest ∧ t.received = s.received ∧ t.turns = s.turns ∧ t.earlier = s.earlier ∧
    (i.writesFb = false → t.fb = s.fb) ∧
    (t.responses = s.responses ∨ ∃ r, t.responses = s.responses ++ [r])

/-- R160, R175: a well-formed command answers a next state in every state; one that is not well formed (which the decoder
never gives) stops by name, which is the model's choice (log entry 9); and no command calls MemRead or MemWrite out of
range (R40). -/
def Obligations.CommandsStopOnlyWhenIllFormed : Prop :=
  (∀ (i : Instr) (s : State), i.wf s.pageCount = true → ∃ t, exec i s = .next t) ∧
  (∀ (i : Instr) (s : State), i.wf s.pageCount = false → exec i s = .fault .payloadLength) ∧
  (∀ (i : Instr) (s : State), exec i s ≠ .fault .addressOutOfRange) ∧
  (∀ (pages : Nat) (ws : List Word) (i : Instr) (n : Nat), decode pages ws = .command i n → i.wf pages = true)

/-- R161: no later command behaves differently because an earlier one failed: what a command does depends on no response
sent before and on no entry of the history. That a command leaves the history itself as it was, the backing's step
adding the transaction later, is the model's reading (log entry 16), and the record of responses is its own (log entry
3). -/
def Obligations.StatusIsNotSticky : Prop :=
  ∀ (i : Instr) (s t : State) (rs : List Response) (h : List HistEntry), exec i s = .next t →
    exec i { s with responses := rs, hist := h } =
      .next { t with responses := rs ++ t.responses.drop s.responses.length, hist := h }

/-! ## The step -/

/-- A step runs the decoded command: the words are taken off the channel, `pc` advances by the command's length, and the
command is executed there. That they are taken before the command's effect is the model's reading (log entry 8).
Another agent's words that are not read by the step do not matter, which is the model's reading too (log entry 10). -/
def Obligations.StepRunsTheDecodedCommand : Prop :=
  (∀ (s : State) (i : Instr) (n : Nat), s.Ready → decode s.pageCount (channelWords s.channel) = .command i n →
    sentByOwner (s.channel.take n) = true →
    step s = exec i { s with channel := s.channel.drop n, pc := s.pc + n }) ∧
  (∀ (s : State) (i : Instr) (rest : List ChannelWord), s.Ready → i.wf s.pageCount = true →
    s.channel = ownerWords (encode i) ++ rest →
    step s = exec i { s with channel := rest, pc := s.pc + i.lengthWords s.pageCount })

/-- R61: a command whose words have all come is consumed at exactly its length, whatever its outcome, and `pc` advances
by that length: 33 for FB_SET_PAGE, `2 + ceil4(PAYLOAD_BYTES)` for FB_BLIT (whatever its width), `1 + cfg.PAGES*32` for
FB_SET_BUFFER, 1 for every other opcode, a reserved one too. That the words are taken, and `pc` advances, in the step that
executes the command, so that a transport command has them behind it while its transaction is still pending, is the
model's reading (log entries 8 and 16). -/
def Obligations.CommandIsConsumedAtItsLength : Prop :=
  ∀ (s : State) (w0 : Word) (rest : List Word) (n : Nat), s.Ready → s.SingleOwner →
    channelWords s.channel = w0 :: rest →
    n = (match (w0.extractLsb' 28 4).toNat with
      | 2 => 33
      | 5 => 2 + ((((rest.headD 0).extractLsb' 0 12).toNat + 7) / 8 * ((rest.headD 0).extractLsb' 12 12).toNat + 3) / 4
      | 7 => 1 + s.cfg.pages.toNat * 32
      | _ => 1) →
    n ≤ s.channel.length →
    ∃ t, step s = .next t ∧ t.pc = s.pc + n ∧ t.channel = s.channel.drop n

/-- R169, R60: with no complete command present the block waits, and the owner has its turn: it reads the responses that
have arrived and, if the words of its program are in step, sends them. They go to the end of the channel, and with them
the channel holds exactly the one command that the block reads next ("sends a command only after it has received the
response to the previous one"), or as before if they are none. If they are out of step (R190), nothing is sent and the
owner is stuck: the next step is the same wait. The block's state, its responses and everything else stay. That this is
one step, that the words are a free value, and that an owner out of step is stuck rather than at a fault (I17), is the
model's choice (log entries 6, 20 and 25), and so are the channel and the count of responses read (log entries 2 and
3). -/
def Obligations.BlockWaitsForACompleteCommand : Prop :=
  ∀ s : State, s.Ready → s.SingleOwner → decode s.pageCount (channelWords s.channel) = .incomplete →
    ∃ t : State, step s = .next t ∧ t.SingleOwner ∧
      (s.inStep s.ownerNext = true →
        t = { s with
          channel := s.channel ++ ownerWords s.ownerNext, received := s.responses.length, turns := s.turns + 1 } ∧
        (s.ownerNext = [] ∨ (∃ i, t.fetch = .command i t.channel.length) ∨ t.fetch = .illegal t.channel.length)) ∧
      (s.inStep s.ownerNext = false →
        t = { s with received := s.responses.length } ∧ step t = .next t)

/-- R190 (with I17): a snapshot of `p` pages in an FB_SET_BUFFER is `1 + p*32` words. The owner may issue it only where
`p` is `cfg.PAGES`: otherwise the words are out of step. On the channel the block reads it at its own length, `1 +
cfg.PAGES*32` (R61), which takes more words or fewer than were meant, so that what the block reads next is what the owner
sent next only where `p` is `cfg.PAGES`; with too few words it waits. What an owner out of step does is the model's
choice (log entry 25). -/
def Obligations.SnapshotOfAnotherSizeIsOutOfStep : Prop :=
  ∀ (s : State) (p : Nat) (d : List Byte) (rest : List Word), s.Ready → d.length = p * 128 →
    (encode (.fbSetBuffer d)).length = 1 + p * 32 ∧
    (s.channel = [] → (s.inStep (encode (.fbSetBuffer d)) = true ↔ p = s.cfg.pages.toNat)) ∧
    (s.channel = ownerWords (encode (.fbSetBuffer d) ++ rest) →
      (p * 32 + rest.length < s.cfg.pages.toNat * 32 → s.fetch = .awaiting) ∧
      (s.cfg.pages.toNat * 32 ≤ p * 32 + rest.length →
        ∃ t, step s = .next t ∧ t.pc = s.pc + (1 + s.cfg.pages.toNat * 32) ∧
          t.channel = ownerWords ((packBytes d ++ rest).drop (s.cfg.pages.toNat * 32)) ∧
          t.responses = s.responses ++ [⟨.ok, false, []⟩] ∧
          (t.channel = ownerWords rest ↔ p = s.cfg.pages.toNat)))

/-- R169, who steps when, for every step between resets: the owner's program goes on exactly when no transaction is
pending, no complete command is present and its next words are in step, the block reads words exactly when one is, legal or illegal, and a backing completes
a transaction exactly when it is pending with it. Only the owner reads responses, and only the block and the backing send
them. Who steps when more than one could is the model's choice (log entry 17), and so is what the owner's turn is (log
entries 6, 20 and 25); that `pc` moves in the block's step, a transport command's too, and the history in the backing's, is
its reading (log entries 8 and 16), and the responses and their count are its record (log entry 3). -/
def Obligations.AgentsStepWhenTheyFire : Prop :=
  ∀ s t : State, s.resetRequest = none → step s = .next t →
    (t.turns ≠ s.turns ↔ s.tmPhase = .idle ∧ s.fetch = .awaiting ∧ s.inStep s.ownerNext = true) ∧
    (t.received ≠ s.received → s.tmPhase = .idle ∧ s.fetch = .awaiting ∧ t.received = s.responses.length) ∧
    (t.pc ≠ s.pc ↔ s.tmPhase = .idle ∧ ((∃ i n, s.fetch = .command i n) ∨ ∃ n, s.fetch = .illegal n)) ∧
    (t.hist ≠ s.hist ↔ ∃ bk txn, s.tmPhase = .pending bk txn) ∧
    (t.responses ≠ s.responses → s.tmPhase ≠ .idle ∨ s.fetch ≠ .awaiting)

/-- R73: a reserved opcode, 0x0 or 0xB to 0xF, is one word long and answered ILLEGAL; the state does not change and no
transaction is emitted.
Another agent's words that are not read by the step do not matter, which is the model's reading (log entry 10). -/
def Obligations.ReservedOpcodeIsIllegal : Prop :=
  ∀ (s : State) (w : Word) (rest : List ChannelWord), s.Ready → s.channel = ⟨.owner, w⟩ :: rest →
    (w.extractLsb' 28 4).toNat = 0x0 ∨ 0xB ≤ (w.extractLsb' 28 4).toNat →
    step s = .next { s with
      channel := rest
      pc := s.pc + 1
      responses := s.responses ++ [⟨.illegal, false, []⟩] }

/-- R74: a known opcode with a reserved bit set in a header word is consumed at its full length, payload included, and
answered ILLEGAL; the state does not change and no transaction is emitted. For FB_BLIT this holds for every width, so
ILLEGAL comes before EPRECOND (R164). -/
def Obligations.ReservedBitIsIllegal : Prop :=
  ∀ (s : State) (w0 w1 : Word) (tail : List ChannelWord) (op : Opcode), s.Ready → s.SingleOwner →
    s.channel = ⟨.owner, w0⟩ :: tail → opcodeOf w0 = some op → secondHeader op (channelWords tail) = some w1 →
    op.commandLength s.pageCount w1 ≤ s.channel.length →
    w0 &&& op.reservedMask ≠ 0 ∨ w1 &&& op.secondReservedMask ≠ 0 →
    step s = .next { s with
      channel := s.channel.drop (op.commandLength s.pageCount w1)
      pc := s.pc + op.commandLength s.pageCount w1
      responses := s.responses ++ [⟨.illegal, false, []⟩] }

/-- R168: a command with a word that another agent than the owner sent is the fault `ConcurrentOwner`, whether the
command is legal, illegal or not complete; it is never executed. That the fault comes when the word would be read is the
model's reading (log entry 10). -/
def Obligations.SecondOwnerIsAFault : Prop :=
  ∀ s : State, s.Ready →
    (∀ i n, decode s.pageCount (channelWords s.channel) = .command i n →
      sentByOwner (s.channel.take n) = false → step s = .fault .concurrentOwner) ∧
    (∀ why n, decode s.pageCount (channelWords s.channel) = .illegal why n →
      sentByOwner (s.channel.take n) = false → step s = .fault .concurrentOwner) ∧
    (decode s.pageCount (channelWords s.channel) = .incomplete →
      sentByOwner s.channel = false → step s = .fault .concurrentOwner)

/-- R77: no command transfers control: a step between resets moves `pc` only forward, by as many words as it takes off
the head of the channel (words are put at its end only by the owner, at its turn); a command moves it by its own length,
an illegal one by the length it is read with. That only the owner puts words on the channel, in a turn of its own, is
from R169 and R60 with the model's choice of log entry 20; that `pc` has moved already while a transaction is pending is
the model's reading (log entries 8 and 16). -/
def Obligations.StreamPositionOnlyAdvances : Prop :=
  ∀ s t : State, s.resetRequest = none → step s = .next t →
    s.pc ≤ t.pc ∧ t.pc - s.pc ≤ s.channel.length ∧
    (∃ ws, t.channel = s.channel.drop (t.pc - s.pc) ++ ownerWords ws ∧
      (ws ≠ [] → s.tmPhase = .idle ∧ s.fetch = .awaiting)) ∧
    (∀ i n, s.tmPhase = .idle → s.fetch = .command i n → t.pc = s.pc + i.lengthWords s.pageCount) ∧
    (∀ n, s.tmPhase = .idle → s.fetch = .illegal n → t.pc = s.pc + n)

/-- R182: between resets `cfg` does not change, and `FB` changes only under a command of the framebuffer ports. -/
def Obligations.LifetimeOfConfigAndStorage : Prop :=
  ∀ s t : State, s.resetRequest = none → step s = .next t →
    t.cfg = s.cfg ∧ t.fbSize = s.fbSize ∧
    (t.fb ≠ s.fb → ∃ i n, s.fetch = .command i n ∧ i.writesFb = true)

/-- R165: an error is precise. After ILLEGAL or EPRECOND the state is as before but for `pc` (and the words and the
response on the two channels); after a backing's reply it is as before but for the new history entry (and the model's
count of draws, of which nothing is said), the phase being idle again, and BUSFAIL says that the entry is a failed one.
The backing's reply is a step of its own (log entry 16). -/
def Obligations.ErrorsArePrecise : Prop :=
  ∀ (s t : State) (r : Response), s.resetRequest = none → step s = .next t → t.responses = s.responses ++ [r] →
    (r.status = .illegal ∨ r.status = .eprecond →
      ∃ n, t = { s with channel := s.channel.drop n, pc := s.pc + n, responses := s.responses ++ [r] }) ∧
    (r.status = .busfail → ∃ bk txn, s.tmPhase = .pending bk txn) ∧
    (∀ bk txn, s.tmPhase = .pending bk txn → ∃ o n, (r.status = .busfail ↔ o = .fail) ∧
      t = { s with tmPhase := .idle, hist := s.hist ++ [⟨bk, txn, o⟩], draws := n,
                   responses := s.responses ++ [r] })

/-- R160 and R164, the causes of the statuses: a response says ILLEGAL exactly when the block read a reserved encoding,
EPRECOND exactly when it ran an FB_BLIT whose width is no multiple of 8, and BUSFAIL exactly when the backing returned
Fail. So a bounds overrun, of any port or of a push, is answered OK (R162). That the BUSFAIL response and the
record of the transaction are one step, the backing's, is the model's reading (log entry 16). -/
def Obligations.StatusesHaveTheirCauses : Prop :=
  ∀ (s t : State) (r : Response), s.resetRequest = none → step s = .next t → t.responses = s.responses ++ [r] →
    (r.status = .illegal ↔ s.tmPhase = .idle ∧ ∃ n, s.fetch = .illegal n) ∧
    (r.status = .eprecond ↔ s.tmPhase = .idle ∧ ∃ xpos ypos width height inv d n,
      s.fetch = .command (.fbBlit xpos ypos width height inv d) n ∧ width.toNat % 8 ≠ 0) ∧
    (r.status = .busfail ↔ ∃ bk txn, s.tmPhase = .pending bk txn ∧ t.hist = s.hist ++ [⟨bk, txn, .fail⟩])

/-! ## Construction and reset -/

/-- R31, R180: construction with legal arguments samples them into `cfg`, sets `cfg.PAGES` to `height div 8`, every byte
of `FB` to 0x00, `tm_phase` to Idle, `pc` to 0 and `hist` to empty, and hands over no transaction. -/
def Obligations.ConstructionGivesTheResetState : Prop :=
  ∀ a : ConstructionArgs, a.height % 8 = 0 → 8 ≤ a.height → a.height ≤ 2048 → 1 ≤ a.width → a.width ≤ 128 →
    a.transportKind ≤ 1 → a.flip ≤ 1 →
    ∃ t, construct a = .next t ∧
      t.cfg.width.toNat = a.width ∧ t.cfg.height.toNat = a.height ∧ t.cfg.pages.toNat = a.height / 8 ∧
      (t.cfg.transportKind = .addressed ↔ a.transportKind = 0) ∧
      (t.cfg.transportKind = .serial ↔ a.transportKind = 1) ∧
      (t.cfg.flip = true ↔ a.flip = 1) ∧
      (∀ n, t.fb.read n = 0x00) ∧ t.tmPhase = .idle ∧ t.pc = 0 ∧ t.hist = []

/-- R181: with any other arguments construction is refused; and a state whose `cfg` no legal arguments give is given no
step. -/
def Obligations.IllegalConstructionIsRefused : Prop :=
  (∀ a : ConstructionArgs,
    ¬ (a.height % 8 = 0 ∧ 8 ≤ a.height ∧ a.height ≤ 2048 ∧ 1 ≤ a.width ∧ a.width ≤ 128 ∧
      a.transportKind ≤ 1 ∧ a.flip ≤ 1) → construct a = .refused .illegalConstruction) ∧
  (∀ s : State, s.resetRequest = none →
    (∀ a t, construct a = .next t → t.cfg ≠ s.cfg) → step s = .refused .illegalConstruction)

/-- R180: a reset applied again has the same effect as construction on every piece of the block's state, and drops a
pending transaction with its outcome: the history is empty and nothing is sent. The panel's state after it is unknown.
That the owner's words not yet read and the counts of turns and draws stay is the model's choice (log entry 5), and so is
that what was handed over before stays on record for the panel's sake (log entry 21). No response to the dropped command
ever comes (log entry 24). That
the construction is served before a pending backing or a waiting command is the model's choice (log entry 17), and that
it is performed in a state whose `cfg` is illegal too is the model's reading (R181, log entry 18).
Another agent's words that are not read by the step do not matter, which is the model's reading too (log entry 10). -/
def Obligations.RepeatedResetDropsThePendingTransaction : Prop :=
  ∀ (s c : State) (a : ConstructionArgs), s.resetRequest = some a → construct a = .next c →
    ∃ t, step s = .next t ∧ t.cfg = c.cfg ∧ t.fb = c.fb ∧ t.tmPhase = .idle ∧ t.pc = 0 ∧ t.hist = [] ∧
      t.responses = [] ∧ t.received = 0 ∧ t.resetRequest = none ∧ t.channel = s.channel ∧ t.turns = s.turns ∧
      t.draws = s.draws ∧ t.earlier = s.handedOver ∧ (∀ n b, t.panelByte n ≠ .known b)

/-! ## Invariants and safety -/

/-- The invariant holds right after construction with any legal arguments, and in State.reset, whose arguments are the
model's choice (log entry 1). -/
def Obligations.ConstructionMeetsTheInvariant : Prop :=
  (∀ (a : ConstructionArgs) (t : State), construct a = .next t → t.Inv) ∧ State.reset.Inv

/-- Every step keeps the invariant: legal configuration, canonical `FB` inside `cfg.PAGES*128` bytes, every transaction
within its bound and for the selected backing, every response of R64's shape, and no more responses read than sent (of
the model's own record, log entry 3). -/
def Obligations.StepKeepsTheInvariant : Prop :=
  ∀ s t : State, s.Inv → step s = .next t → t.Inv

/-- R175: nothing is fatal. With one owner and legal constructions, a step of an instance always answers a next state, of
which the same holds: no run ever stops with a fault or a refusal. That it is the owner's turn where no complete command
is present (a wait, if the owner is stuck), and that a construction is asked for in the state, are the model's choices
(log entries 6, 25 and 5). -/
def Obligations.NothingIsFatal : Prop :=
  ∀ s : State, s.cfg.legal = true → s.SingleOwner → s.LegalRequest →
    ∃ t, step s = .next t ∧ t.cfg.legal = true ∧ t.SingleOwner ∧ t.LegalRequest

/-- R60, R175: every command is answered with exactly one response, in at most two steps (the block's, and the backing's
where a transaction is handed over), after which the block is idle at the next command. That these are two steps, and
when `pc` moves, is the model's reading (log entries 16 and 8).
Another agent's words that are not read by the step do not matter, which is the model's reading too (log entry 10). -/
def Obligations.EveryCommandIsAnswered : Prop :=
  ∀ (s : State) (i : Instr) (rest : List ChannelWord), s.Ready → i.wf s.pageCount = true →
    s.channel = ownerWords (encode i) ++ rest →
    ∃ t r, (step s = .next t ∨ ∃ u, step s = .next u ∧ u.responses = s.responses ∧ step u = .next t) ∧
      t.responses = s.responses ++ [r] ∧ t.Ready ∧ t.channel = rest ∧ t.pc = s.pc + i.lengthWords s.pageCount

/-! ## The panel -/

/-- R49: after TM_PUSH(page, col, count) completes with Ack, the panel holds, at the columns sent, the bytes `FB` held
when the push was issued (unless the panel may be scrolling, R186); while the push is pending nothing is known of them
(the model's choice, log entry 22); and whatever the outcome, what is known of every other byte of the panel is
unchanged. The view of the panel is the model's (log entries 13 and 21), and presumes that the backing and the panel have been
brought up before the push (R183 step 2; the model's choice, log entry 23). That the push is left pending and a further
step, the backing's, completes it is the model's reading (log entry 16).
Another agent's words that are not read by the step do not matter, which is the model's reading too (log entry 10). -/
def Obligations.AcknowledgedPushMakesThePanelKnown : Prop :=
  ∀ (s : State) (page col count : Byte), s.Ready →
    page.toNat < s.cfg.pages.toNat → col.toNat < 128 → count.toNat ≠ 0 →
    ∃ t txn, exec (.tmPush page col count) s = .next t ∧ t.tmPhase = .pending s.cfg.transportKind txn ∧
      (∃ o, step t = .next (t.complete s.cfg.transportKind txn o)) ∧
      (∀ k, k < min count.toNat (128 - col.toNat) → s.panelByte (page.toNat * 128 + col.toNat + k) ≠ .scrolling →
        (t.complete s.cfg.transportKind txn .ack).panelByte (page.toNat * 128 + col.toNat + k) =
            .known (s.fb.read (page.toNat * 128 + col.toNat + k)) ∧
          t.panelByte (page.toNat * 128 + col.toNat + k) = .unknown) ∧
      (∀ a o, a < page.toNat * 128 + col.toNat ∨
          page.toNat * 128 + col.toNat + min count.toNat (128 - col.toNat) ≤ a →
        t.panelByte a = s.panelByte a ∧ (t.complete s.cfg.transportKind txn o).panelByte a = s.panelByte a)

/-- R50, R186, R187: a push that is pending or has failed leaves the region unknown; a later acknowledged push of the
region makes it known again; from a scroll command on, whatever its outcome and whatever is sent later, a construction
applied again included, nothing is known of the panel; and as long as no scroll command has been handed over the panel is
not taken to scroll. The view of the panel is the model's (log entries 13, 21 and 22), and where it knows a byte it
presumes that the backing and the panel have been brought up before (R183 step 2; the model's choice, log entry 23). That
a transaction is pending between two steps is the model's reading (log entry 16). -/
def Obligations.FailureAndScrollMakeThePanelUnknown : Prop :=
  (∀ (s : State) (bk : Backing) (page col : Byte) (bytes : List Byte) (a : Nat) (b : Byte),
    s.tmPhase = .pending bk (.writeRegion page col bytes) →
    page.toNat * 128 + col.toNat ≤ a → a < page.toNat * 128 + col.toNat + bytes.length →
    s.panelByte a ≠ .known b ∧ (s.complete bk (.writeRegion page col bytes) .fail).panelByte a ≠ .known b) ∧
  (∀ (s t : State) (bk : Backing) (page col : Byte) (bytes : List Byte) (k : Nat), s.tmPhase = .idle →
    t = s.complete bk (.writeRegion page col bytes) .fail → k < bytes.length →
    s.panelByte (page.toNat * 128 + col.toNat + k) ≠ .scrolling →
    (t.complete bk (.writeRegion page col bytes) .ack).panelByte (page.toNat * 128 + col.toNat + k) =
      .known (bytes.getD k 0)) ∧
  (∀ (s : State) (bk : Backing) (selector : Byte) (o : TxnOutcome) (a : Nat),
    s.tmPhase = .pending bk (.scrollMode selector) →
    s.panelByte a = .scrolling ∧ (s.complete bk (.scrollMode selector) o).panelByte a = .scrolling) ∧
  (∀ (s t : State) (a : Nat), s.panelByte a = .scrolling → step s = .next t → t.panelByte a = .scrolling) ∧
  (∀ (s : State) (a : Nat), (∀ e ∈ s.earlier, ∀ selector, e.txn ≠ .scrollMode selector) →
    (∀ e ∈ s.hist, ∀ selector, e.txn ≠ .scrollMode selector) →
    (∀ bk selector, s.tmPhase ≠ .pending bk (.scrollMode selector)) → s.panelByte a ≠ .scrolling)
end

