-- ==== Sys2Proof/Laws/State.lean ====
section
/-! SUPPORT. The named updates of State, one lemma for each field of each update, so that no proof unfolds a record
update; and the operations that are one of these updates. -/

namespace Sys2Proof.Machine

variable (s : State)

/-! ## setFb -/

@[simp] theorem State.setFb_cfg (f : Memory) : (s.setFb f).cfg = s.cfg := rfl
@[simp] theorem State.setFb_fb (f : Memory) : (s.setFb f).fb = f := rfl
@[simp] theorem State.setFb_tmPhase (f : Memory) : (s.setFb f).tmPhase = s.tmPhase := rfl
@[simp] theorem State.setFb_pc (f : Memory) : (s.setFb f).pc = s.pc := rfl
@[simp] theorem State.setFb_hist (f : Memory) : (s.setFb f).hist = s.hist := rfl
@[simp] theorem State.setFb_channel (f : Memory) : (s.setFb f).channel = s.channel := rfl
@[simp] theorem State.setFb_responses (f : Memory) : (s.setFb f).responses = s.responses := rfl
@[simp] theorem State.setFb_received (f : Memory) : (s.setFb f).received = s.received := rfl
@[simp] theorem State.setFb_turns (f : Memory) : (s.setFb f).turns = s.turns := rfl
@[simp] theorem State.setFb_draws (f : Memory) : (s.setFb f).draws = s.draws := rfl
@[simp] theorem State.setFb_earlier (f : Memory) : (s.setFb f).earlier = s.earlier := rfl
@[simp] theorem State.setFb_resetRequest (f : Memory) : (s.setFb f).resetRequest = s.resetRequest := rfl
@[simp] theorem State.setFb_pageCount (f : Memory) : (s.setFb f).pageCount = s.pageCount := rfl
@[simp] theorem State.setFb_fbSize (f : Memory) : (s.setFb f).fbSize = s.fbSize := rfl
@[simp] theorem State.setFb_pageInBounds (f : Memory) (page : Byte) : (s.setFb f).pageInBounds page = s.pageInBounds page := rfl
@[simp] theorem State.setFb_pixelInBounds (f : Memory) (x y : Nat) : (s.setFb f).pixelInBounds x y = s.pixelInBounds x y := rfl
@[simp] theorem State.setFb_pushSends (f : Memory) (page col count : Byte) : (s.setFb f).pushSends page col count = s.pushSends page col count := rfl

/-! ## setPhase -/

@[simp] theorem State.setPhase_cfg (p : TmPhase) : (s.setPhase p).cfg = s.cfg := rfl
@[simp] theorem State.setPhase_fb (p : TmPhase) : (s.setPhase p).fb = s.fb := rfl
@[simp] theorem State.setPhase_tmPhase (p : TmPhase) : (s.setPhase p).tmPhase = p := rfl
@[simp] theorem State.setPhase_pc (p : TmPhase) : (s.setPhase p).pc = s.pc := rfl
@[simp] theorem State.setPhase_hist (p : TmPhase) : (s.setPhase p).hist = s.hist := rfl
@[simp] theorem State.setPhase_channel (p : TmPhase) : (s.setPhase p).channel = s.channel := rfl
@[simp] theorem State.setPhase_responses (p : TmPhase) : (s.setPhase p).responses = s.responses := rfl
@[simp] theorem State.setPhase_received (p : TmPhase) : (s.setPhase p).received = s.received := rfl
@[simp] theorem State.setPhase_turns (p : TmPhase) : (s.setPhase p).turns = s.turns := rfl
@[simp] theorem State.setPhase_draws (p : TmPhase) : (s.setPhase p).draws = s.draws := rfl
@[simp] theorem State.setPhase_earlier (p : TmPhase) : (s.setPhase p).earlier = s.earlier := rfl
@[simp] theorem State.setPhase_resetRequest (p : TmPhase) : (s.setPhase p).resetRequest = s.resetRequest := rfl
@[simp] theorem State.setPhase_pageCount (p : TmPhase) : (s.setPhase p).pageCount = s.pageCount := rfl
@[simp] theorem State.setPhase_fbSize (p : TmPhase) : (s.setPhase p).fbSize = s.fbSize := rfl
@[simp] theorem State.setPhase_pageInBounds (p : TmPhase) (page : Byte) : (s.setPhase p).pageInBounds page = s.pageInBounds page := rfl
@[simp] theorem State.setPhase_pixelInBounds (p : TmPhase) (x y : Nat) : (s.setPhase p).pixelInBounds x y = s.pixelInBounds x y := rfl
@[simp] theorem State.setPhase_pushSends (p : TmPhase) (page col count : Byte) : (s.setPhase p).pushSends page col count = s.pushSends page col count := rfl

/-! ## record -/

@[simp] theorem State.record_cfg (bk : Backing) (txn : Transaction) (o : TxnOutcome) : (s.record bk txn o).cfg = s.cfg := rfl
@[simp] theorem State.record_fb (bk : Backing) (txn : Transaction) (o : TxnOutcome) : (s.record bk txn o).fb = s.fb := rfl
@[simp] theorem State.record_tmPhase (bk : Backing) (txn : Transaction) (o : TxnOutcome) : (s.record bk txn o).tmPhase = s.tmPhase := rfl
@[simp] theorem State.record_pc (bk : Backing) (txn : Transaction) (o : TxnOutcome) : (s.record bk txn o).pc = s.pc := rfl
@[simp] theorem State.record_hist (bk : Backing) (txn : Transaction) (o : TxnOutcome) : (s.record bk txn o).hist = s.hist ++ [{ backing := bk, txn := txn, outcome := o }] := rfl
@[simp] theorem State.record_channel (bk : Backing) (txn : Transaction) (o : TxnOutcome) : (s.record bk txn o).channel = s.channel := rfl
@[simp] theorem State.record_responses (bk : Backing) (txn : Transaction) (o : TxnOutcome) : (s.record bk txn o).responses = s.responses := rfl
@[simp] theorem State.record_received (bk : Backing) (txn : Transaction) (o : TxnOutcome) : (s.record bk txn o).received = s.received := rfl
@[simp] theorem State.record_turns (bk : Backing) (txn : Transaction) (o : TxnOutcome) : (s.record bk txn o).turns = s.turns := rfl
@[simp] theorem State.record_draws (bk : Backing) (txn : Transaction) (o : TxnOutcome) : (s.record bk txn o).draws = s.draws + 1 := rfl
@[simp] theorem State.record_earlier (bk : Backing) (txn : Transaction) (o : TxnOutcome) : (s.record bk txn o).earlier = s.earlier := rfl
@[simp] theorem State.record_resetRequest (bk : Backing) (txn : Transaction) (o : TxnOutcome) : (s.record bk txn o).resetRequest = s.resetRequest := rfl
@[simp] theorem State.record_pageCount (bk : Backing) (txn : Transaction) (o : TxnOutcome) : (s.record bk txn o).pageCount = s.pageCount := rfl
@[simp] theorem State.record_fbSize (bk : Backing) (txn : Transaction) (o : TxnOutcome) : (s.record bk txn o).fbSize = s.fbSize := rfl
@[simp] theorem State.record_pageInBounds (bk : Backing) (txn : Transaction) (o : TxnOutcome) (page : Byte) : (s.record bk txn o).pageInBounds page = s.pageInBounds page := rfl
@[simp] theorem State.record_pixelInBounds (bk : Backing) (txn : Transaction) (o : TxnOutcome) (x y : Nat) : (s.record bk txn o).pixelInBounds x y = s.pixelInBounds x y := rfl
@[simp] theorem State.record_pushSends (bk : Backing) (txn : Transaction) (o : TxnOutcome) (page col count : Byte) : (s.record bk txn o).pushSends page col count = s.pushSends page col count := rfl

/-! ## answer -/

@[simp] theorem State.answer_cfg (r : Response) : (s.answer r).cfg = s.cfg := rfl
@[simp] theorem State.answer_fb (r : Response) : (s.answer r).fb = s.fb := rfl
@[simp] theorem State.answer_tmPhase (r : Response) : (s.answer r).tmPhase = s.tmPhase := rfl
@[simp] theorem State.answer_pc (r : Response) : (s.answer r).pc = s.pc := rfl
@[simp] theorem State.answer_hist (r : Response) : (s.answer r).hist = s.hist := rfl
@[simp] theorem State.answer_channel (r : Response) : (s.answer r).channel = s.channel := rfl
@[simp] theorem State.answer_responses (r : Response) : (s.answer r).responses = s.responses ++ [r] := rfl
@[simp] theorem State.answer_received (r : Response) : (s.answer r).received = s.received := rfl
@[simp] theorem State.answer_turns (r : Response) : (s.answer r).turns = s.turns := rfl
@[simp] theorem State.answer_draws (r : Response) : (s.answer r).draws = s.draws := rfl
@[simp] theorem State.answer_earlier (r : Response) : (s.answer r).earlier = s.earlier := rfl
@[simp] theorem State.answer_resetRequest (r : Response) : (s.answer r).resetRequest = s.resetRequest := rfl
@[simp] theorem State.answer_pageCount (r : Response) : (s.answer r).pageCount = s.pageCount := rfl
@[simp] theorem State.answer_fbSize (r : Response) : (s.answer r).fbSize = s.fbSize := rfl
@[simp] theorem State.answer_pageInBounds (r : Response) (page : Byte) : (s.answer r).pageInBounds page = s.pageInBounds page := rfl
@[simp] theorem State.answer_pixelInBounds (r : Response) (x y : Nat) : (s.answer r).pixelInBounds x y = s.pixelInBounds x y := rfl
@[simp] theorem State.answer_pushSends (r : Response) (page col count : Byte) : (s.answer r).pushSends page col count = s.pushSends page col count := rfl

/-! ## consume -/

@[simp] theorem State.consume_cfg (n : Nat) : (s.consume n).cfg = s.cfg := rfl
@[simp] theorem State.consume_fb (n : Nat) : (s.consume n).fb = s.fb := rfl
@[simp] theorem State.consume_tmPhase (n : Nat) : (s.consume n).tmPhase = s.tmPhase := rfl
@[simp] theorem State.consume_pc (n : Nat) : (s.consume n).pc = s.pc + n := rfl
@[simp] theorem State.consume_hist (n : Nat) : (s.consume n).hist = s.hist := rfl
@[simp] theorem State.consume_channel (n : Nat) : (s.consume n).channel = s.channel.drop n := rfl
@[simp] theorem State.consume_responses (n : Nat) : (s.consume n).responses = s.responses := rfl
@[simp] theorem State.consume_received (n : Nat) : (s.consume n).received = s.received := rfl
@[simp] theorem State.consume_turns (n : Nat) : (s.consume n).turns = s.turns := rfl
@[simp] theorem State.consume_draws (n : Nat) : (s.consume n).draws = s.draws := rfl
@[simp] theorem State.consume_earlier (n : Nat) : (s.consume n).earlier = s.earlier := rfl
@[simp] theorem State.consume_resetRequest (n : Nat) : (s.consume n).resetRequest = s.resetRequest := rfl
@[simp] theorem State.consume_pageCount (n : Nat) : (s.consume n).pageCount = s.pageCount := rfl
@[simp] theorem State.consume_fbSize (n : Nat) : (s.consume n).fbSize = s.fbSize := rfl
@[simp] theorem State.consume_pageInBounds (n : Nat) (page : Byte) : (s.consume n).pageInBounds page = s.pageInBounds page := rfl
@[simp] theorem State.consume_pixelInBounds (n : Nat) (x y : Nat) : (s.consume n).pixelInBounds x y = s.pixelInBounds x y := rfl
@[simp] theorem State.consume_pushSends (n : Nat) (page col count : Byte) : (s.consume n).pushSends page col count = s.pushSends page col count := rfl

/-! ## ownerTurn -/

@[simp] theorem State.ownerTurn_cfg : s.ownerTurn.cfg = s.cfg := rfl
@[simp] theorem State.ownerTurn_fb : s.ownerTurn.fb = s.fb := rfl
@[simp] theorem State.ownerTurn_tmPhase : s.ownerTurn.tmPhase = s.tmPhase := rfl
@[simp] theorem State.ownerTurn_pc : s.ownerTurn.pc = s.pc := rfl
@[simp] theorem State.ownerTurn_hist : s.ownerTurn.hist = s.hist := rfl
@[simp] theorem State.ownerTurn_channel : s.ownerTurn.channel = s.channel ++ ownerWords s.ownerSends := rfl
@[simp] theorem State.ownerTurn_responses : s.ownerTurn.responses = s.responses := rfl
@[simp] theorem State.ownerTurn_received : s.ownerTurn.received = s.responses.length := rfl
@[simp] theorem State.ownerTurn_turns : s.ownerTurn.turns = if s.inStep s.ownerNext then s.turns + 1 else s.turns := rfl
@[simp] theorem State.ownerTurn_draws : s.ownerTurn.draws = s.draws := rfl
@[simp] theorem State.ownerTurn_earlier : s.ownerTurn.earlier = s.earlier := rfl
@[simp] theorem State.ownerTurn_resetRequest : s.ownerTurn.resetRequest = s.resetRequest := rfl
@[simp] theorem State.ownerTurn_pageCount : s.ownerTurn.pageCount = s.pageCount := rfl
@[simp] theorem State.ownerTurn_fbSize : s.ownerTurn.fbSize = s.fbSize := rfl

/-! ## Operations that are these updates -/

@[simp] theorem State.respond_eq_answer (d : List Byte) :
    s.respond d = s.answer { status := .ok, pix := false, data := d } := rfl
@[simp] theorem State.respondPixel_eq_answer (v : Bool) :
    s.respondPixel v = s.answer { status := .ok, pix := v, data := [] } := rfl
@[simp] theorem State.raise_eq_answer (st : Status) :
    s.raise st = s.answer { status := st, pix := false, data := [] } := rfl
@[simp] theorem State.emit_eq_setPhase (txn : Transaction) :
    s.emit txn = s.setPhase (.pending s.cfg.transportKind txn) := rfl
@[simp] theorem State.complete_eq (bk : Backing) (txn : Transaction) (o : TxnOutcome) :
    s.complete bk txn o = ((s.record bk txn o).setPhase .idle).raise (Status.ofOutcome o) := rfl
@[simp] theorem State.backingReturns_eq (bk : Backing) (txn : Transaction) :
    s.backingReturns bk txn = s.complete bk txn (Config.backingOutcome bk txn s.draws) := rfl

/-! ## Construction -/

variable (a : ConstructionArgs)

@[simp] theorem State.constructed_cfg : (State.constructed a).cfg = ConfigRegs.sampled a := rfl
@[simp] theorem State.constructed_fb : (State.constructed a).fb = [] := rfl
@[simp] theorem State.constructed_tmPhase : (State.constructed a).tmPhase = .idle := rfl
@[simp] theorem State.constructed_pc : (State.constructed a).pc = 0 := rfl
@[simp] theorem State.constructed_hist : (State.constructed a).hist = [] := rfl
@[simp] theorem State.constructed_channel : (State.constructed a).channel = [] := rfl
@[simp] theorem State.constructed_responses : (State.constructed a).responses = [] := rfl
@[simp] theorem State.constructed_received : (State.constructed a).received = 0 := rfl
@[simp] theorem State.constructed_turns : (State.constructed a).turns = 0 := rfl
@[simp] theorem State.constructed_draws : (State.constructed a).draws = 0 := rfl
@[simp] theorem State.constructed_earlier : (State.constructed a).earlier = [] := rfl
@[simp] theorem State.constructed_resetRequest : (State.constructed a).resetRequest = none := rfl

/-! ## withFetchWord -/

variable (nbits w : Nat)

@[simp] theorem State.withFetchWord_cfg : (s.withFetchWord nbits w).cfg = s.cfg := rfl
@[simp] theorem State.withFetchWord_fb : (s.withFetchWord nbits w).fb = s.fb := rfl
@[simp] theorem State.withFetchWord_tmPhase : (s.withFetchWord nbits w).tmPhase = .idle := rfl
@[simp] theorem State.withFetchWord_pc : (s.withFetchWord nbits w).pc = s.pc := rfl
@[simp] theorem State.withFetchWord_hist : (s.withFetchWord nbits w).hist = s.hist := rfl
@[simp] theorem State.withFetchWord_channel : (s.withFetchWord nbits w).channel = ownerWords (tableWords s.pageCount nbits w) ++ s.channel := rfl
@[simp] theorem State.withFetchWord_responses : (s.withFetchWord nbits w).responses = s.responses := rfl
@[simp] theorem State.withFetchWord_received : (s.withFetchWord nbits w).received = s.received := rfl
@[simp] theorem State.withFetchWord_turns : (s.withFetchWord nbits w).turns = s.turns := rfl
@[simp] theorem State.withFetchWord_draws : (s.withFetchWord nbits w).draws = s.draws := rfl
@[simp] theorem State.withFetchWord_earlier : (s.withFetchWord nbits w).earlier = s.earlier := rfl
@[simp] theorem State.withFetchWord_resetRequest : (s.withFetchWord nbits w).resetRequest = none := rfl

end Sys2Proof.Machine
end

