-- ==== Sys2Proof/Laws/Memory.lean ====
section
/-! SUPPORT. The laws of the framebuffer storage: read after write, every operation keeps the canonical form and the
range, and two canonical memories that read alike are equal. -/

namespace Sys2Proof.Machine

namespace Memory

@[simp] theorem read_nil (a : Nat) : Memory.read [] a = unlisted := rfl

theorem read_cons (k : Nat) (v : Byte) (m : Memory) (a : Nat) :
    Memory.read ((k, v) :: m) a = if k = a then v else m.read a := rfl

/-- An address below every listed one reads as unlisted. -/
theorem read_of_lt {m : Memory} {a : Nat} (h : ∀ c ∈ m, a < c.1) : m.read a = unlisted := by
  induction m with
  | nil => rfl
  | cons c m ih =>
    obtain ⟨k, v⟩ := c
    have hk : a < k := h (k, v) (by simp)
    rw [read_cons, if_neg (by omega)]
    exact ih fun c hc => h c (by simp [hc])

/-- Nothing is listed at or above the size of the buffer. -/
theorem read_of_below {m : Memory} {size a : Nat} (h : m.below size) (ha : size ≤ a) : m.read a = unlisted := by
  induction m with
  | nil => rfl
  | cons c m ih =>
    obtain ⟨k, v⟩ := c
    have hk : k < size := h (k, v) (by simp)
    rw [read_cons, if_neg (by omega)]
    exact ih fun c hc => h c (by simp [hc])

theorem wf_cons {k : Nat} {v : Byte} {m : Memory} :
    Memory.wf ((k, v) :: m) ↔ (∀ c ∈ m, k < c.1) ∧ v ≠ unlisted ∧ m.wf := by
  simp only [Memory.wf, List.pairwise_cons, List.mem_cons, forall_eq_or_imp]
  tauto

theorem wf_nil : Memory.wf [] := by simp [Memory.wf]

theorem read_cell_ne {a b : Nat} (v : Byte) (m : Memory) (h : b ≠ a) : (cell a v m).read b = m.read b := by
  unfold cell
  split
  · rfl
  · rw [read_cons, if_neg (by omega)]

theorem read_cell_same {a : Nat} (v : Byte) {m : Memory} (h : ∀ c ∈ m, a < c.1) : (cell a v m).read a = v := by
  unfold cell
  split
  · rw [read_of_lt h, ‹v = unlisted›]
  · rw [read_cons, if_pos rfl]

/-- A write leaves every other address alone, in every memory. -/
theorem read_write_ne {a b : Nat} (m : Memory) (v : Byte) (h : b ≠ a) : (m.write a v).read b = m.read b := by
  induction m with
  | nil => exact read_cell_ne v [] h
  | cons c m ih =>
    obtain ⟨k, w⟩ := c
    simp only [Memory.write]
    split
    · exact read_cell_ne v _ h
    · split
      · rw [read_cell_ne v _ h, read_cons, if_neg (by omega)]
      · rw [read_cons, read_cons, ih]

/-- A write is read back. -/
theorem read_write_same {m : Memory} (h : m.wf) (a : Nat) (v : Byte) : (m.write a v).read a = v := by
  induction m with
  | nil => exact read_cell_same v (by simp)
  | cons c m ih =>
    obtain ⟨k, w⟩ := c
    rw [wf_cons] at h
    simp only [Memory.write]
    split
    · refine read_cell_same v fun c hc => ?_
      rcases List.mem_cons.1 hc with rfl | hc
      · assumption
      · have := h.1 c hc; omega
    · split
      · subst_vars; exact read_cell_same v h.1
      · rw [read_cons, if_neg (by omega), ih h.2.2]

theorem read_write {m : Memory} (h : m.wf) (a : Nat) (v : Byte) (b : Nat) :
    (m.write a v).read b = if b = a then v else m.read b := by
  split
  · subst_vars; exact read_write_same h _ _
  · exact read_write_ne m v ‹_›

/-- Every cell a write leaves is the one written or one that was there. -/
theorem mem_write {m : Memory} {a : Nat} {v : Byte} {c : Host.Cell} (h : c ∈ m.write a v) :
    (c = (a, v) ∧ v ≠ unlisted) ∨ c ∈ m := by
  have hcell : ∀ m' : Memory, c ∈ cell a v m' → (c = (a, v) ∧ v ≠ unlisted) ∨ c ∈ m' := by
    intro m' hc
    unfold cell at hc
    split at hc
    · exact .inr hc
    · rcases List.mem_cons.1 hc with rfl | hc
      · exact .inl ⟨rfl, ‹_›⟩
      · exact .inr hc
  induction m with
  | nil => exact hcell [] h
  | cons d m ih =>
    obtain ⟨k, w⟩ := d
    simp only [Memory.write] at h
    split at h
    · exact hcell _ h
    · split at h
      · exact (hcell _ h).imp_right (List.mem_cons_of_mem _)
      · rcases List.mem_cons.1 h with rfl | h
        · exact .inr (by simp)
        · exact (ih h).imp_right (List.mem_cons_of_mem _)

theorem wf_cell {a : Nat} {v : Byte} {m : Memory} (h : m.wf) (ha : ∀ c ∈ m, a < c.1) : (cell a v m).wf := by
  unfold cell
  split
  · exact h
  · exact wf_cons.2 ⟨ha, ‹_›, h⟩

/-- A write keeps the canonical form. -/
theorem wf_write {m : Memory} (h : m.wf) (a : Nat) (v : Byte) : (m.write a v).wf := by
  induction m with
  | nil => exact wf_cell wf_nil (by simp)
  | cons c m ih =>
    obtain ⟨k, w⟩ := c
    have h' := wf_cons.1 h
    simp only [Memory.write]
    split
    · refine wf_cell h fun c hc => ?_
      rcases List.mem_cons.1 hc with rfl | hc
      · assumption
      · have := h'.1 c hc; omega
    · split
      · subst_vars; exact wf_cell h'.2.2 h'.1
      · refine wf_cons.2 ⟨fun c hc => ?_, h'.2.1, ih h'.2.2⟩
        rcases mem_write hc with ⟨rfl, -⟩ | hc
        · change k < a; omega
        · exact h'.1 c hc

/-- A write inside the buffer lists nothing outside it. -/
theorem below_write {m : Memory} {size a : Nat} (h : m.below size) (ha : a < size) (v : Byte) :
    (m.write a v).below size := by
  intro c hc
  rcases mem_write hc with ⟨rfl, -⟩ | hc
  · exact ha
  · exact h c hc

/-! ## Runs of bytes -/

@[simp] theorem length_readBytes (m : Memory) (a n : Nat) : (m.readBytes a n).length = n := by
  simp [Memory.readBytes]

theorem getElem_readBytes (m : Memory) (a n k : Nat) (h : k < (m.readBytes a n).length) :
    (m.readBytes a n)[k] = m.read (a + k) := by
  simp [Memory.readBytes]

theorem wf_writeBytes {m : Memory} (h : m.wf) (a : Nat) (vs : List Byte) : (m.writeBytes a vs).wf := by
  induction vs generalizing m a with
  | nil => exact h
  | cons v vs ih => exact ih (wf_write h a v) (a + 1)

theorem below_writeBytes {m : Memory} {size a : Nat} (h : m.below size) (vs : List Byte)
    (ha : a + vs.length ≤ size) : (m.writeBytes a vs).below size := by
  induction vs generalizing m a with
  | nil => exact h
  | cons v vs ih =>
    rw [List.length_cons] at ha
    exact ih (below_write h (by omega) v) (by omega)

/-- A run written leaves every other address alone, in every memory. -/
theorem read_writeBytes_ne (m : Memory) (a : Nat) (vs : List Byte) {b : Nat} (h : b < a ∨ a + vs.length ≤ b) :
    (m.writeBytes a vs).read b = m.read b := by
  induction vs generalizing m a with
  | nil => rfl
  | cons v vs ih =>
    rw [List.length_cons] at h
    rw [Memory.writeBytes, ih _ _ (by omega), read_write_ne m v (by omega)]

/-- A run written is read back, byte by byte. -/
theorem read_writeBytes_same {m : Memory} (h : m.wf) (a : Nat) (vs : List Byte) (k : Nat) (hk : k < vs.length) :
    (m.writeBytes a vs).read (a + k) = vs[k] := by
  induction vs generalizing m a k with
  | nil => simp at hk
  | cons v vs ih =>
    cases k with
    | zero =>
      rw [Memory.writeBytes, read_writeBytes_ne _ _ _ (.inl (by omega)), Nat.add_zero, read_write_same h]
      rfl
    | succ k =>
      have := ih (wf_write h a v) (a + 1) k (by simpa using hk)
      rw [Memory.writeBytes, show a + (k + 1) = a + 1 + k by omega, this]
      rfl

/-- A run written is read back whole. -/
theorem readBytes_writeBytes {m : Memory} (h : m.wf) (a : Nat) (vs : List Byte) :
    (m.writeBytes a vs).readBytes a vs.length = vs := by
  refine List.ext_getElem (by simp) fun k h1 h2 => ?_
  rw [getElem_readBytes, read_writeBytes_same h a vs k h2]

/-! ## Equal contents, equal data -/

/-- Two canonical memories that read alike are equal. -/
theorem ext_of_wf {m m' : Memory} (h : m.wf) (h' : m'.wf) (heq : ∀ a, m.read a = m'.read a) : m = m' := by
  induction m generalizing m' with
  | nil =>
    cases m' with
    | nil => rfl
    | cons c m' =>
      obtain ⟨k, v⟩ := c
      have := heq k
      rw [read_cons, if_pos rfl] at this
      exact absurd this.symm (wf_cons.1 h').2.1
  | cons c m ih =>
    obtain ⟨k, v⟩ := c
    have hm := wf_cons.1 h
    cases m' with
    | nil =>
      have := heq k
      rw [read_cons, if_pos rfl] at this
      exact absurd this hm.2.1
    | cons c' m' =>
      obtain ⟨k', v'⟩ := c'
      have hm' := wf_cons.1 h'
      have low : ∀ {j : Nat} {w : Byte} {l : Memory} {b : Nat}, (∀ c ∈ l, j < c.1) → b < j →
          Memory.read ((j, w) :: l) b = unlisted := by
        intro j w l b hl hb
        refine read_of_lt fun c hc => ?_
        rcases List.mem_cons.1 hc with rfl | hc
        · exact hb
        · have := hl c hc; omega
      have hk : k = k' := by
        rcases Nat.lt_trichotomy k k' with hlt | heq' | hlt
        · have := heq k
          rw [read_cons, if_pos rfl, low hm'.1 hlt] at this
          exact absurd this hm.2.1
        · exact heq'
        · have := heq k'
          rw [low hm.1 hlt, read_cons, if_pos rfl] at this
          exact absurd this.symm hm'.2.1
      subst hk
      have hv : v = v' := by simpa [read_cons] using heq k
      subst hv
      have : m = m' := by
        refine ih hm.2.2 hm'.2.2 fun a => ?_
        by_cases ha : k = a
        · subst ha; rw [read_of_lt hm.1, read_of_lt hm'.1]
        · simpa [read_cons, ha] using heq a
      rw [this]

/-- Writing the byte an address already holds changes nothing. -/
theorem write_read_self {m : Memory} (h : m.wf) (a : Nat) : m.write a (m.read a) = m :=
  ext_of_wf (wf_write h a _) h fun b => by rw [read_write h]; split <;> simp_all

end Memory

end Sys2Proof.Machine
end

