-- ==== Sys2Proof/Laws/Bits.lean ====
section
/-! SUPPORT. The laws of the bit functions and of the pixel helpers, bit by bit: what each gives at every bit, and what
one pixel's write does to every byte and to every pixel. -/

namespace Sys2Proof.Machine

/-! ## Bytes -/

theorem getLsbD_rotateByte (b : Byte) (i : Nat) :
    (rotateByte b).getLsbD i = (decide (i < 8) && b.getLsbD (7 - i)) := by
  by_cases h : i < 8
  · have hb : ∀ b : Byte, ∀ i : Fin 8, (rotateByte b).getLsbD i = b.getLsbD (7 - i) := by decide +kernel
    simpa [h] using hb b ⟨i, h⟩
  · simp only [h, decide_false, Bool.false_and]
    exact BitVec.getLsbD_of_ge _ _ (by omega)

theorem byte_ext {b c : Byte} (h : ∀ i < 8, b.getLsbD i = c.getLsbD i) : b = c :=
  BitVec.eq_of_getLsbD_eq fun i hi => h i hi

@[simp] theorem rotateByte_rotateByte (b : Byte) : rotateByte (rotateByte b) = b := by
  refine byte_ext fun i hi => ?_
  rw [getLsbD_rotateByte, getLsbD_rotateByte]
  simp [hi, show 7 - (7 - i) = i by omega, show 7 - i < 8 by omega]

theorem getLsbD_copyBit (src : Byte) (sb : Nat) (dst : Byte) {db : Nat} (hdb : db < 8) (i : Nat) :
    (copyBit src sb dst db).getLsbD i = if i = db then src.getLsbD sb else dst.getLsbD i := by
  by_cases hi : i < 8
  · have h1 : (1 : Byte).getLsbD (i - db) = decide (i = db ∨ i < db) := by
      rw [show (1 : Byte) = 1#8 from rfl, BitVec.getLsbD_one]
      simp only [show (0 < 8) = True by simp, decide_true, Bool.true_and, decide_eq_decide]; omega
    have h2 : ∀ v : Bool, (BitVec.ofBool v).getLsbD (i - db) = (v && decide (i ≤ db)) := by
      intro v; rw [BitVec.getLsbD_ofBool, Bool.and_comm]; congr 1; simp only [decide_eq_decide]; omega
    simp only [copyBit, BitVec.getLsbD_or, BitVec.getLsbD_and, BitVec.getLsbD_not, BitVec.getLsbD_shiftLeft,
      BitVec.getLsbD_setWidth, hi, h1, h2]
    rcases Nat.lt_trichotomy i db with h | h | h
    · simp [h, Nat.ne_of_lt h]
    · subst h; simp
    · simp [show ¬ i < db by omega, show i ≠ db by omega, show ¬ i ≤ db by omega]
  · rw [BitVec.getLsbD_of_ge _ _ (by omega), if_neg (by omega), BitVec.getLsbD_of_ge _ _ (by omega)]

@[simp] theorem getLsbD_pixelByte (v : Bool) : (pixelByte v).getLsbD 0 = v := by
  cases v <;> decide

theorem pixbit_lt (f : Bool) {r : Nat} (h : r < 8) : pixbit f r < 8 := by
  unfold pixbit; split <;> omega

@[simp] theorem pixbit_pixbit (f : Bool) {r : Nat} (h : r < 8) : pixbit f (pixbit f r) = r := by
  unfold pixbit; split <;> omega

theorem pixbit_inj {f : Bool} {r r' : Nat} (h : r < 8) (h' : r' < 8) : pixbit f r = pixbit f r' ↔ r = r' := by
  unfold pixbit; split <;> omega

theorem getLsbD_orient (f : Bool) (b : Byte) {i : Nat} (hi : i < 8) :
    (orient f b).getLsbD i = b.getLsbD (pixbit f i) := by
  unfold orient pixbit
  cases f
  · simp
  · simp only [if_true]; rw [getLsbD_rotateByte]; simp [hi]

/-- `PixWrite`'s new byte: one bit replaced, the seven others kept. -/
theorem getLsbD_orient_copyBit (f : Bool) (b : Byte) (v : Bool) {r i : Nat} (hr : r < 8) (hi : i < 8) :
    (orient f (copyBit (pixelByte v) 0 (orient f b) r)).getLsbD i =
      if i = pixbit f r then v else b.getLsbD i := by
  have hp := pixbit_lt f hi
  rw [getLsbD_orient f _ hi, getLsbD_copyBit _ _ _ hr, getLsbD_orient f _ hp, getLsbD_pixelByte,
    pixbit_pixbit f hi]
  have : pixbit f i = r ↔ i = pixbit f r := by
    rw [← pixbit_inj hp hr (f := f), pixbit_pixbit f hi]
  simp only [this]

/-! ## Pixels -/

theorem pixelAddress_inj {x y x' y' : Nat} (hx : x < 128) (hx' : x' < 128) :
    pixelAddress x y = pixelAddress x' y' ↔ x = x' ∧ y / 8 = y' / 8 := by
  unfold pixelAddress; omega

/-- A pixel in bounds lies in the buffer. -/
theorem pixelAddress_lt {x y pages : Nat} (hx : x < 128) (hy : y < 8 * pages) : pixelAddress x y < pages * 128 := by
  unfold pixelAddress; omega

variable (f : Bool) (fb : Memory) (x y : Nat) (v : Bool)

/-- `PixRead` reads exactly bit `pixbit(y mod 8)` of the pixel's byte. -/
theorem pixRead_eq : pixRead f fb x y = (fb.read (pixelAddress x y)).getLsbD (pixbit f (y % 8)) :=
  getLsbD_orient f _ (Nat.mod_lt _ (by omega))

theorem wf_pixWrite {fb : Memory} (h : fb.wf) : (pixWrite f fb x y v).wf := Memory.wf_write h _ _

theorem below_pixWrite {fb : Memory} {size : Nat} (h : fb.below size) (ha : pixelAddress x y < size) :
    (pixWrite f fb x y v).below size := Memory.below_write h ha _

/-- `PixWrite` leaves every byte but the pixel's alone. -/
theorem read_pixWrite_ne {a : Nat} (ha : a ≠ pixelAddress x y) : (pixWrite f fb x y v).read a = fb.read a :=
  Memory.read_write_ne _ _ ha

/-- `PixWrite` changes exactly bit `pixbit(y mod 8)` of the pixel's byte. -/
theorem getLsbD_read_pixWrite_same {fb : Memory} (h : fb.wf) {i : Nat} (hi : i < 8) :
    ((pixWrite f fb x y v).read (pixelAddress x y)).getLsbD i =
      if i = pixbit f (y % 8) then v else (fb.read (pixelAddress x y)).getLsbD i := by
  unfold pixWrite
  rw [Memory.read_write_same h]
  exact getLsbD_orient_copyBit f _ v (Nat.mod_lt _ (by omega)) hi

/-- One pixel written, every pixel read. -/
theorem pixRead_pixWrite {fb : Memory} (h : fb.wf) {x x' : Nat} (hx : x < 128) (hx' : x' < 128) (y' : Nat) :
    pixRead f (pixWrite f fb x y v) x' y' = if x' = x ∧ y' = y then v else pixRead f fb x' y' := by
  rw [pixRead_eq, pixRead_eq]
  have h8 : y % 8 < 8 := Nat.mod_lt _ (by omega)
  have h8' : y' % 8 < 8 := Nat.mod_lt _ (by omega)
  by_cases ha : pixelAddress x' y' = pixelAddress x y
  · rw [ha, getLsbD_read_pixWrite_same f x y v h (pixbit_lt f h8')]
    rw [pixelAddress_inj hx' hx] at ha
    have : pixbit f (y' % 8) = pixbit f (y % 8) ↔ x' = x ∧ y' = y := by rw [pixbit_inj h8' h8]; omega
    simp only [this]
  · rw [read_pixWrite_ne f fb x y v ha, if_neg]
    rintro ⟨rfl, rfl⟩
    exact ha rfl

/-- Writing the value a pixel already holds leaves the framebuffer as it is. -/
theorem pixWrite_pixRead_self {fb : Memory} (h : fb.wf) : pixWrite f fb x y (pixRead f fb x y) = fb := by
  have : orient f (copyBit (pixelByte (pixRead f fb x y)) 0 (orient f (fb.read (pixelAddress x y))) (y % 8)) =
      fb.read (pixelAddress x y) := by
    refine byte_ext fun i hi => ?_
    rw [getLsbD_orient_copyBit f _ _ (Nat.mod_lt _ (by omega)) hi, pixRead_eq]
    split <;> simp_all
  unfold pixWrite
  simp only [this]
  exact Memory.write_read_self h _

end Sys2Proof.Machine
end

