-- ==== Sys2Proof/Laws/Codec.lean ====
section
/-! SUPPORT. The laws of packing, of the header formats and of the decoder: what each field of an encoded header word
reads as, what a decoded command's length is, and that the decoder looks at no word after the command. -/

namespace Sys2Proof

/-! ## Packing -/

@[simp] theorem wordBytes_wordOfBytes (a b c d : Byte) : wordBytes (wordOfBytes a b c d) = [a, b, c, d] := by
  simp (disch := omega) only [wordBytes, wordOfBytes, BitVec.extractLsb'_append_eq_of_le,
    BitVec.extractLsb'_append_eq_of_add_le, Nat.sub_self, BitVec.extractLsb'_eq_self]

theorem wordOfBytes_wordBytes (w : Word) :
    wordOfBytes (w.extractLsb' 0 8) (w.extractLsb' 8 8) (w.extractLsb' 16 8) (w.extractLsb' 24 8) = w := by
  refine BitVec.eq_of_getLsbD_eq fun i hi => ?_
  simp only [wordOfBytes, BitVec.getLsbD_append, BitVec.getLsbD_extractLsb']
  split
  · simp [*]
  · split
    · simp [show i - 8 < 8 by omega, show 8 + (i - 8) = i by omega]
    · split
      · simp [show i - 8 - 8 < 8 by omega, show 16 + (i - 8 - 8) = i by omega]
      · simp [show i - 8 - 8 - 8 < 8 by omega, show 24 + (i - 8 - 8 - 8) = i by omega]

@[simp] theorem length_packBytes : ∀ d : List Byte, (packBytes d).length = ceil4 d.length
  | [] | [_] | [_, _] | [_, _, _] => by simp [packBytes, ceil4]
  | _ :: _ :: _ :: _ :: rest => by
    simp only [packBytes, List.length_cons, length_packBytes rest, ceil4]; omega

/-- The bytes of a packed list, with the zero bytes that fill the last word. -/
theorem flatMap_packBytes : ∀ d : List Byte, ∃ pad, (packBytes d).flatMap wordBytes = d ++ pad
  | [] => ⟨[], rfl⟩
  | [_] => ⟨[0, 0, 0], by simp [packBytes]⟩
  | [_, _] => ⟨[0, 0], by simp [packBytes]⟩
  | [_, _, _] => ⟨[0], by simp [packBytes]⟩
  | _ :: _ :: _ :: _ :: rest => by
    obtain ⟨pad, h⟩ := flatMap_packBytes rest
    exact ⟨pad, by simp [packBytes, h]⟩

/-- A packed payload is read back, whatever words follow it. -/
theorem unpackBytes_packBytes (d : List Byte) (rest : List Word) : unpackBytes d.length (packBytes d ++ rest) = d := by
  obtain ⟨pad, h⟩ := flatMap_packBytes d
  rw [unpackBytes, List.take_append_of_le_length (Nat.le_of_eq (length_packBytes d).symm),
    List.take_of_length_le (Nat.le_of_eq (length_packBytes d)), h,
    List.take_append_of_le_length (Nat.le_refl _), List.take_length]

theorem length_flatMap_wordBytes (ws : List Word) : (ws.flatMap wordBytes).length = 4 * ws.length := by
  induction ws with
  | nil => rfl
  | cons w ws ih => simp only [List.flatMap_cons, List.length_append, ih, List.length_cons]; simp [wordBytes]; omega

/-- A payload of `n` bytes is read where its words have come. -/
theorem length_unpackBytes {n : Nat} {ws : List Word} (h : ceil4 n ≤ ws.length) : (unpackBytes n ws).length = n := by
  simp only [unpackBytes, List.length_take, length_flatMap_wordBytes, ceil4] at h ⊢
  omega

/-- `n` whole words of bytes, packed again, are the words they were read from. -/
theorem packBytes_flatMap_wordBytes (ws : List Word) : packBytes (ws.flatMap wordBytes) = ws := by
  induction ws with
  | nil => rfl
  | cons w ws ih =>
    rw [List.flatMap_cons]
    change wordOfBytes _ _ _ _ :: packBytes (ws.flatMap wordBytes) = w :: ws
    rw [ih, wordOfBytes_wordBytes]

/-- Byte `k` of a word made of four bytes. -/
theorem extract_wordOfBytes (a b c d : Byte) {k : Nat} (h : k < 4) :
    (wordOfBytes a b c d).extractLsb' (8 * k) 8 = [a, b, c, d].getD k 0 := by
  have e := wordBytes_wordOfBytes a b c d
  simp only [wordBytes, List.cons.injEq, and_true] at e
  interval_cases k
  · exact e.1
  · exact e.2.1
  · exact e.2.2.1
  · exact e.2.2.2

/-- R63's place of every byte: byte `k` of a packed list is byte `k mod 4` of word `k div 4`, the bytes past the end zero. -/
theorem extract_packBytes : ∀ (d : List Byte) (k : Nat),
    ((packBytes d).getD (k / 4) 0).extractLsb' (8 * (k % 4)) 8 = d.getD k 0
  | [], k => by simp [packBytes]
  | [a], k => by
    rcases Nat.lt_or_ge k 4 with h4 | h4
    · rw [Nat.div_eq_of_lt h4, Nat.mod_eq_of_lt h4, packBytes, List.getD_cons_zero, extract_wordOfBytes _ _ _ _ h4]
      interval_cases k <;> rfl
    · rw [packBytes, List.getD_eq_default _ _ (by simp; omega), List.getD_eq_default _ _ (by simp; omega)]; simp
  | [a, b], k => by
    rcases Nat.lt_or_ge k 4 with h4 | h4
    · rw [Nat.div_eq_of_lt h4, Nat.mod_eq_of_lt h4, packBytes, List.getD_cons_zero, extract_wordOfBytes _ _ _ _ h4]
      interval_cases k <;> rfl
    · rw [packBytes, List.getD_eq_default _ _ (by simp; omega), List.getD_eq_default _ _ (by simp; omega)]; simp
  | [a, b, c], k => by
    rcases Nat.lt_or_ge k 4 with h4 | h4
    · rw [Nat.div_eq_of_lt h4, Nat.mod_eq_of_lt h4, packBytes, List.getD_cons_zero, extract_wordOfBytes _ _ _ _ h4]
      interval_cases k <;> rfl
    · rw [packBytes, List.getD_eq_default _ _ (by simp; omega), List.getD_eq_default _ _ (by simp; omega)]; simp
  | a :: b :: c :: d :: rest, k => by
    rcases Nat.lt_or_ge k 4 with h4 | h4
    · rw [Nat.div_eq_of_lt h4, Nat.mod_eq_of_lt h4, packBytes, List.getD_cons_zero, extract_wordOfBytes _ _ _ _ h4]
      interval_cases k <;> rfl
    · obtain ⟨j, rfl⟩ := Nat.exists_eq_add_of_le' h4
      rw [packBytes, show (j + 4) / 4 = j / 4 + 1 by omega, show (j + 4) % 4 = j % 4 by omega, List.getD_cons_succ]
      exact extract_packBytes rest j

/-! ## Header words -/

/-- The opcode field decides the operation. -/
theorem opcodeOf_of_number {w : Word} {op : Opcode} (h : w.extractLsb' 28 4 = op.number) : opcodeOf w = some op := by
  rw [opcodeOf, h]; cases op <;> rfl

/-- And nothing else does. -/
theorem number_of_opcodeOf {w : Word} {op : Opcode} (h : opcodeOf w = some op) : w.extractLsb' 28 4 = op.number := by
  rw [opcodeOf] at h
  refine BitVec.eq_of_toNat_eq ?_
  split at h <;> cases h <;> assumption

/-- The opcodes 0x0 and 0xB..0xF select no operation. -/
theorem opcodeOf_eq_none_iff (w : Word) :
    opcodeOf w = none ↔ (w.extractLsb' 28 4).toNat = 0 ∨ 0xB ≤ (w.extractLsb' 28 4).toNat := by
  have hlt := (w.extractLsb' 28 4).isLt
  unfold opcodeOf
  generalize (w.extractLsb' 28 4).toNat = n at hlt ⊢
  interval_cases n <;> simp

section Fields

variable (op : BitVec 4) (inv val : Bool) (x y : Coord) (a b c : Byte)

@[simp] theorem formatP_op : (formatP op a).extractLsb' 28 4 = op := by
  simp (disch := omega) only [formatP, BitVec.extractLsb'_append_eq_of_le, Nat.sub_self, BitVec.extractLsb'_eq_self]
@[simp] theorem formatP_page : (formatP op a).extractLsb' 0 8 = a := by
  simp (disch := omega) only [formatP, BitVec.extractLsb'_append_eq_of_add_le, BitVec.extractLsb'_eq_self]
@[simp] theorem formatP_reserved : formatP op a &&& 0x0FFFFF00#32 = 0#32 := by
  refine BitVec.eq_of_getLsbD_eq fun i hi => ?_
  interval_cases i <;> simp only [formatP, BitVec.getLsbD_and, BitVec.getLsbD_append] <;> simp

@[simp] theorem formatX_op : (formatX op inv val y x).extractLsb' 28 4 = op := by
  simp (disch := omega) only [formatX, BitVec.extractLsb'_append_eq_of_le, Nat.sub_self, BitVec.extractLsb'_eq_self]
@[simp] theorem formatX_x : (formatX op inv val y x).extractLsb' 0 12 = x := by
  simp (disch := omega) only [formatX, BitVec.extractLsb'_append_eq_of_add_le, BitVec.extractLsb'_eq_self]
@[simp] theorem formatX_y : (formatX op inv val y x).extractLsb' 12 12 = y := by
  simp (disch := omega) only [formatX, BitVec.extractLsb'_append_eq_of_le, BitVec.extractLsb'_append_eq_of_add_le,
    Nat.sub_self, BitVec.extractLsb'_eq_self]
@[simp] theorem formatX_inv : (formatX op inv val y x).getLsbD 27 = inv := by
  simp only [formatX, BitVec.getLsbD_append]; simp
@[simp] theorem formatX_val : (formatX op inv val y x).getLsbD 26 = val := by
  simp only [formatX, BitVec.getLsbD_append]; simp
@[simp] theorem formatX_reserved : formatX op inv val y x &&& 0x03000000#32 = 0#32 := by
  refine BitVec.eq_of_getLsbD_eq fun i hi => ?_
  interval_cases i <;> simp only [formatX, BitVec.getLsbD_and, BitVec.getLsbD_append] <;> simp
@[simp] theorem formatX_reserved_get : formatX op inv false y x &&& 0x07000000#32 = 0#32 := by
  refine BitVec.eq_of_getLsbD_eq fun i hi => ?_
  interval_cases i <;> simp only [formatX, BitVec.getLsbD_and, BitVec.getLsbD_append] <;> simp

@[simp] theorem formatB0_op : (formatB0 op inv y x).extractLsb' 28 4 = op := by
  simp (disch := omega) only [formatB0, BitVec.extractLsb'_append_eq_of_le, Nat.sub_self, BitVec.extractLsb'_eq_self]
@[simp] theorem formatB0_xpos : (formatB0 op inv y x).extractLsb' 0 12 = x := by
  simp (disch := omega) only [formatB0, BitVec.extractLsb'_append_eq_of_add_le, BitVec.extractLsb'_eq_self]
@[simp] theorem formatB0_ypos : (formatB0 op inv y x).extractLsb' 12 12 = y := by
  simp (disch := omega) only [formatB0, BitVec.extractLsb'_append_eq_of_le, BitVec.extractLsb'_append_eq_of_add_le,
    Nat.sub_self, BitVec.extractLsb'_eq_self]
@[simp] theorem formatB0_inv : (formatB0 op inv y x).getLsbD 27 = inv := by
  simp only [formatB0, BitVec.getLsbD_append]; simp
@[simp] theorem formatB0_reserved : formatB0 op inv y x &&& 0x07000000#32 = 0#32 := by
  refine BitVec.eq_of_getLsbD_eq fun i hi => ?_
  interval_cases i <;> simp only [formatB0, BitVec.getLsbD_and, BitVec.getLsbD_append] <;> simp

@[simp] theorem formatB1_width : blitWidth (formatB1 y x) = x := by
  simp (disch := omega) only [blitWidth, formatB1, BitVec.extractLsb'_append_eq_of_add_le, BitVec.extractLsb'_eq_self]
@[simp] theorem formatB1_height : blitHeight (formatB1 y x) = y := by
  simp (disch := omega) only [blitHeight, formatB1, BitVec.extractLsb'_append_eq_of_le,
    BitVec.extractLsb'_append_eq_of_add_le, Nat.sub_self, BitVec.extractLsb'_eq_self]
@[simp] theorem formatB1_reserved : formatB1 y x &&& 0xFF000000#32 = 0#32 := by
  refine BitVec.eq_of_getLsbD_eq fun i hi => ?_
  interval_cases i <;> simp only [formatB1, BitVec.getLsbD_and, BitVec.getLsbD_append] <;> simp

@[simp] theorem formatG_op : (formatG op).extractLsb' 28 4 = op := by
  simp (disch := omega) only [formatG, BitVec.extractLsb'_append_eq_of_le, Nat.sub_self, BitVec.extractLsb'_eq_self]
@[simp] theorem formatG_reserved : formatG op &&& 0x0FFFFFFF#32 = 0#32 := by
  refine BitVec.eq_of_getLsbD_eq fun i hi => ?_
  interval_cases i <;> simp only [formatG, BitVec.getLsbD_and, BitVec.getLsbD_append] <;> simp

@[simp] theorem formatT_op : (formatT op c b a).extractLsb' 28 4 = op := by
  simp (disch := omega) only [formatT, BitVec.extractLsb'_append_eq_of_le, Nat.sub_self, BitVec.extractLsb'_eq_self]
@[simp] theorem formatT_page : (formatT op c b a).extractLsb' 0 8 = a := by
  simp (disch := omega) only [formatT, BitVec.extractLsb'_append_eq_of_add_le, BitVec.extractLsb'_eq_self]
@[simp] theorem formatT_col : (formatT op c b a).extractLsb' 8 8 = b := by
  simp (disch := omega) only [formatT, BitVec.extractLsb'_append_eq_of_le, BitVec.extractLsb'_append_eq_of_add_le,
    Nat.sub_self, BitVec.extractLsb'_eq_self]
@[simp] theorem formatT_count : (formatT op c b a).extractLsb' 16 8 = c := by
  simp (disch := omega) only [formatT, BitVec.extractLsb'_append_eq_of_le, BitVec.extractLsb'_append_eq_of_add_le,
    Nat.sub_self, BitVec.extractLsb'_eq_self]
@[simp] theorem formatT_reserved : formatT op c b a &&& 0x0F000000#32 = 0#32 := by
  refine BitVec.eq_of_getLsbD_eq fun i hi => ?_
  interval_cases i <;> simp only [formatT, BitVec.getLsbD_and, BitVec.getLsbD_append] <;> simp

@[simp] theorem formatC_op : (formatC op a).extractLsb' 28 4 = op := by
  simp (disch := omega) only [formatC, BitVec.extractLsb'_append_eq_of_le, Nat.sub_self, BitVec.extractLsb'_eq_self]
@[simp] theorem formatC_arg : (formatC op a).extractLsb' 0 8 = a := by
  simp (disch := omega) only [formatC, BitVec.extractLsb'_append_eq_of_add_le, BitVec.extractLsb'_eq_self]
@[simp] theorem formatC_reserved : formatC op a &&& 0x0FFFFF00#32 = 0#32 := by
  refine BitVec.eq_of_getLsbD_eq fun i hi => ?_
  interval_cases i <;> simp only [formatC, BitVec.getLsbD_and, BitVec.getLsbD_append] <;> simp

end Fields

/-! ## Lengths -/

section Lengths

variable (pages : Nat) (w1 : Word)

@[simp] theorem commandLength_fbGetPage : Opcode.fbGetPage.commandLength pages w1 = 1 := by
  simp [Opcode.commandLength, Opcode.headerWords, Opcode.payloadBytes, ceil4]
@[simp] theorem commandLength_fbGetPixel : Opcode.fbGetPixel.commandLength pages w1 = 1 := by
  simp [Opcode.commandLength, Opcode.headerWords, Opcode.payloadBytes, ceil4]
@[simp] theorem commandLength_fbSetPixel : Opcode.fbSetPixel.commandLength pages w1 = 1 := by
  simp [Opcode.commandLength, Opcode.headerWords, Opcode.payloadBytes, ceil4]
@[simp] theorem commandLength_fbGetBuffer : Opcode.fbGetBuffer.commandLength pages w1 = 1 := by
  simp [Opcode.commandLength, Opcode.headerWords, Opcode.payloadBytes, ceil4]
@[simp] theorem commandLength_tmPush : Opcode.tmPush.commandLength pages w1 = 1 := by
  simp [Opcode.commandLength, Opcode.headerWords, Opcode.payloadBytes, ceil4]
@[simp] theorem commandLength_tmSetContrast : Opcode.tmSetContrast.commandLength pages w1 = 1 := by
  simp [Opcode.commandLength, Opcode.headerWords, Opcode.payloadBytes, ceil4]
@[simp] theorem commandLength_tmSetScrollMode : Opcode.tmSetScrollMode.commandLength pages w1 = 1 := by
  simp [Opcode.commandLength, Opcode.headerWords, Opcode.payloadBytes, ceil4]
@[simp] theorem commandLength_fbSetPage : Opcode.fbSetPage.commandLength pages w1 = 33 := by
  simp [Opcode.commandLength, Opcode.headerWords, Opcode.payloadBytes, ceil4]
@[simp] theorem commandLength_fbBlit : Opcode.fbBlit.commandLength pages w1 =
    2 + ceil4 (blitPayloadBytes (blitWidth w1) (blitHeight w1)) := rfl
@[simp] theorem commandLength_fbSetBuffer : Opcode.fbSetBuffer.commandLength pages w1 = 1 + pages * 32 := by
  simp only [Opcode.commandLength, Opcode.headerWords, Opcode.payloadBytes, ceil4]; omega

end Lengths

/-! ## The decoder -/

/-- What the decoder answers for a known opcode with its header words: one lemma for the three cases. -/
theorem decode_known {pages : Nat} {w0 w1 : Word} {tail : List Word} {op : Opcode} (h : opcodeOf w0 = some op)
    (h1 : secondHeader op tail = some w1) : decode pages (w0 :: tail) = decodeWith pages op w0 w1 tail := by
  simp only [decode, h, h1]

/-- A command that is whole and has no reserved bit set is decoded. -/
theorem decode_of_complete {pages : Nat} {w0 w1 : Word} {tail : List Word} {op : Opcode} (h : opcodeOf w0 = some op)
    (h1 : secondHeader op tail = some w1) (hlen : op.commandLength pages w1 ≤ tail.length + 1)
    (hres : hasReservedBit op w0 w1 = false) :
    decode pages (w0 :: tail) = .command
      (assemble op w0 w1 (unpackBytes (op.payloadBytes pages w1) (tail.drop (op.headerWords - 1))))
      (op.commandLength pages w1) := by
  rw [decode_known h h1, decodeWith, if_neg (by omega), hres, if_neg (by simp)]

/-- What a decoded command came from. -/
theorem decode_command_inv {pages : Nat} {ws : List Word} {i : Instr} {n : Nat} (h : decode pages ws = .command i n) :
    ∃ w0 tail op w1, ws = w0 :: tail ∧ opcodeOf w0 = some op ∧ secondHeader op tail = some w1 ∧
      n = op.commandLength pages w1 ∧ n ≤ ws.length ∧ hasReservedBit op w0 w1 = false ∧
      i = assemble op w0 w1 (unpackBytes (op.payloadBytes pages w1) (tail.drop (op.headerWords - 1))) := by
  unfold decode at h
  split at h
  · cases h
  · rename_i w0 tail
    split at h
    · cases h
    · rename_i op hop
      split at h
      · cases h
      · rename_i w1 hw1
        unfold decodeWith at h
        split at h
        · cases h
        · rename_i hlen
          split at h
          · cases h
          · rename_i hres
            obtain ⟨rfl, rfl⟩ := Decoded.command.inj h
            exact ⟨w0, tail, op, w1, rfl, hop, hw1, rfl, by simpa using Nat.le_of_not_lt hlen, by simpa using hres, rfl⟩

/-- What an illegal command came from: a reserved opcode, or a reserved bit in a command that is whole. -/
theorem decode_illegal_inv {pages : Nat} {ws : List Word} {why : IllegalReason} {n : Nat}
    (h : decode pages ws = .illegal why n) :
    ∃ w0 tail, ws = w0 :: tail ∧ n ≤ ws.length ∧
      ((why = .reservedOpcode ∧ opcodeOf w0 = none ∧ n = 1) ∨
        (why = .reservedBit ∧ ∃ op w1, opcodeOf w0 = some op ∧ secondHeader op tail = some w1 ∧
          n = op.commandLength pages w1 ∧ hasReservedBit op w0 w1 = true)) := by
  unfold decode at h
  split at h
  · cases h
  · rename_i w0 tail
    split at h
    · rename_i hop
      obtain ⟨rfl, rfl⟩ := Decoded.illegal.inj h
      exact ⟨w0, tail, rfl, by simp, .inl ⟨rfl, hop, rfl⟩⟩
    · rename_i op hop
      split at h
      · cases h
      · rename_i w1 hw1
        unfold decodeWith at h
        split at h
        · cases h
        · rename_i hlen
          split at h
          · rename_i hres
            obtain ⟨rfl, rfl⟩ := Decoded.illegal.inj h
            exact ⟨w0, tail, rfl, by simpa using Nat.le_of_not_lt hlen, .inr ⟨rfl, op, w1, hop, hw1, rfl, hres⟩⟩
          · cases h

/-- Every command takes at least one word. -/
theorem Opcode.commandLength_pos (op : Opcode) (pages : Nat) (w1 : Word) : 1 ≤ op.commandLength pages w1 := by
  unfold Opcode.commandLength Opcode.headerWords; split <;> omega

/-- A command's length is that of R61's table. -/
theorem Instr.lengthWords_assemble (pages : Nat) (op : Opcode) (w0 w1 : Word) (d : List Byte) :
    (assemble op w0 w1 d).lengthWords pages = op.commandLength pages w1 := by
  cases op <;> simp only [assemble, Instr.lengthWords, Opcode.commandLength, Opcode.headerWords, Opcode.payloadBytes,
    ceil4]
  all_goals omega

/-! ## Header words, the other way: a word with no reserved bit set is its fields in their format -/

/-- A bit under a mask that reads zero is zero. -/
theorem zero_bit {w m : Word} (h : w &&& m = 0) {i : Nat} (hm : m.getLsbD i = true) : w.getLsbD i = false := by
  have := congrArg (fun x => x.getLsbD i) h
  simpa [BitVec.getLsbD_and, hm] using this


theorem formatP_fields {w : Word} (h : w &&& 0x0FFFFF00 = 0) :
    formatP (w.extractLsb' 28 4) (w.extractLsb' 0 8) = w := by
  refine BitVec.eq_of_getLsbD_eq fun i hi => ?_
  interval_cases i <;> simp only [formatP, BitVec.getLsbD_append, BitVec.getLsbD_extractLsb'] <;>
    first | (simp; done) | exact ((zero_bit h (by decide)).trans (by simp)).symm

theorem formatX_fields {w : Word} (h : w &&& 0x03000000 = 0) :
    formatX (w.extractLsb' 28 4) (w.getLsbD 27) (w.getLsbD 26) (w.extractLsb' 12 12) (w.extractLsb' 0 12) = w := by
  refine BitVec.eq_of_getLsbD_eq fun i hi => ?_
  interval_cases i <;> simp only [formatX, BitVec.getLsbD_append, BitVec.getLsbD_extractLsb', BitVec.getLsbD_ofBool] <;>
    first | (simp; done) | exact ((zero_bit h (by decide)).trans (by simp)).symm

theorem formatX_fields' {w : Word} (h : w &&& 0x07000000 = 0) :
    formatX (w.extractLsb' 28 4) (w.getLsbD 27) false (w.extractLsb' 12 12) (w.extractLsb' 0 12) = w := by
  refine BitVec.eq_of_getLsbD_eq fun i hi => ?_
  interval_cases i <;> simp only [formatX, BitVec.getLsbD_append, BitVec.getLsbD_extractLsb', BitVec.getLsbD_ofBool] <;>
    first | (simp; done) | exact ((zero_bit h (by decide)).trans (by simp)).symm

theorem formatB0_fields {w : Word} (h : w &&& 0x07000000 = 0) :
    formatB0 (w.extractLsb' 28 4) (w.getLsbD 27) (w.extractLsb' 12 12) (w.extractLsb' 0 12) = w := by
  refine BitVec.eq_of_getLsbD_eq fun i hi => ?_
  interval_cases i <;> simp only [formatB0, BitVec.getLsbD_append, BitVec.getLsbD_extractLsb', BitVec.getLsbD_ofBool] <;>
    first | (simp; done) | exact ((zero_bit h (by decide)).trans (by simp)).symm

theorem formatB1_fields {w : Word} (h : w &&& 0xFF000000 = 0) :
    formatB1 (blitHeight w) (blitWidth w) = w := by
  refine BitVec.eq_of_getLsbD_eq fun i hi => ?_
  interval_cases i <;> simp only [formatB1, blitHeight, blitWidth, BitVec.getLsbD_append, BitVec.getLsbD_extractLsb'] <;>
    first | (simp; done) | exact ((zero_bit h (by decide)).trans (by simp)).symm

theorem formatG_fields {w : Word} (h : w &&& 0x0FFFFFFF = 0) :
    formatG (w.extractLsb' 28 4) = w := by
  refine BitVec.eq_of_getLsbD_eq fun i hi => ?_
  interval_cases i <;> simp only [formatG, BitVec.getLsbD_append, BitVec.getLsbD_extractLsb'] <;>
    first | (simp; done) | exact ((zero_bit h (by decide)).trans (by simp)).symm

theorem formatT_fields {w : Word} (h : w &&& 0x0F000000 = 0) :
    formatT (w.extractLsb' 28 4) (w.extractLsb' 16 8) (w.extractLsb' 8 8) (w.extractLsb' 0 8) = w := by
  refine BitVec.eq_of_getLsbD_eq fun i hi => ?_
  interval_cases i <;> simp only [formatT, BitVec.getLsbD_append, BitVec.getLsbD_extractLsb'] <;>
    first | (simp; done) | exact ((zero_bit h (by decide)).trans (by simp)).symm

theorem formatC_fields {w : Word} (h : w &&& 0x0FFFFF00 = 0) :
    formatC (w.extractLsb' 28 4) (w.extractLsb' 0 8) = w := formatP_fields h

/-- A command read off the channel, encoded again: its header words are the ones read. -/
theorem encode_assemble {pages : Nat} {op : Opcode} {w0 w1 : Word} {tail : List Word} (hop : opcodeOf w0 = some op)
    (hw1 : secondHeader op tail = some w1) (hn : op.commandLength pages w1 ≤ tail.length + 1)
    (hres : hasReservedBit op w0 w1 = false) :
    encode (assemble op w0 w1 (unpackBytes (op.payloadBytes pages w1) (tail.drop (op.headerWords - 1)))) =
      (w0 :: tail).take op.headerWords ++ packBytes (unpackBytes (op.payloadBytes pages w1) (tail.drop (op.headerWords - 1))) := by
  have hnum := number_of_opcodeOf hop
  obtain ⟨h0, h1⟩ : w0 &&& op.reservedMask = 0 ∧ w1 &&& op.secondReservedMask = 0 := by
    simpa [hasReservedBit] using hres
  cases op <;> simp only [Opcode.number] at hnum <;> simp only [assemble, encode, Opcode.headerWords,
    List.take_succ_cons, List.take_zero, List.cons_append, List.nil_append, Opcode.payloadBytes]
  case fbBlit =>
    cases tail with
    | nil => simp [secondHeader] at hw1
    | cons w tail =>
      simp [secondHeader] at hw1; subst hw1
      rw [← hnum, formatB0_fields h0, formatB1_fields h1]; rfl
  case fbGetPage => rw [← hnum, formatP_fields h0]; rfl
  case fbSetPage => rw [← hnum, formatP_fields h0]
  case fbGetPixel => rw [← hnum, formatX_fields' h0]; rfl
  case fbSetPixel => rw [← hnum, formatX_fields h0]; rfl
  case fbGetBuffer => rw [← hnum, formatG_fields h0]; rfl
  case fbSetBuffer => rw [← hnum, formatG_fields h0]
  case tmPush => rw [← hnum, formatT_fields h0]; rfl
  case tmSetContrast => rw [← hnum, formatC_fields h0]; rfl
  case tmSetScrollMode => rw [← hnum, formatC_fields h0]; rfl

end Sys2Proof
end

