-- ==== Sys2Proof/Laws/Ops.lean ====
section
/-! SUPPORT. One lemma for each shared operation that says what it does: the checked primitives, the bounds, a pixel
drawn, a row and a whole bitmap drawn. Provers cite these instead of unfolding the operations. -/

namespace Sys2Proof.Machine

variable (s : State)

/-! ## Bounds -/

theorem State.pageInBounds_iff {s : State} {page : Byte} : s.pageInBounds page = true ↔ page.toNat < s.pageCount := by
  simp [State.pageInBounds]

theorem State.pixelInBounds_iff {s : State} {x y : Nat} :
    s.pixelInBounds x y = true ↔ x < 128 ∧ y < 8 * s.pageCount := by
  exact decide_eq_true_iff

theorem State.pageInBounds_eq_false_iff {s : State} {page : Byte} :
    s.pageInBounds page = false ↔ s.pageCount ≤ page.toNat := by
  rw [← Bool.not_eq_true, State.pageInBounds_iff, Nat.not_lt]

theorem State.pixelInBounds_eq_false_iff {s : State} {x y : Nat} :
    s.pixelInBounds x y = false ↔ 128 ≤ x ∨ 8 * s.pageCount ≤ y := by
  rw [← Bool.not_eq_true, State.pixelInBounds_iff]; omega

theorem State.pushSends_iff {s : State} {page col count : Byte} :
    s.pushSends page col count = true ↔ page.toNat < s.pageCount ∧ col.toNat < 128 ∧ count.toNat ≠ 0 := by
  rw [State.pushSends, Bool.and_eq_true, Bool.and_eq_true, State.pageInBounds_iff, decide_eq_true_iff,
    decide_eq_true_iff, and_assoc, cols]

theorem State.pushSends_eq_false_iff {s : State} {page col count : Byte} :
    s.pushSends page col count = false ↔ s.pageCount ≤ page.toNat ∨ 128 ≤ col.toNat ∨ count.toNat = 0 := by
  rw [← Bool.not_eq_true, State.pushSends_iff]; omega

theorem State.fbSize_eq : s.fbSize = s.pageCount * 128 := rfl

/-- A page in bounds lies in the buffer, whole. -/
theorem State.page_fits {s : State} {page : Byte} (h : s.pageInBounds page = true) :
    pageAddress page + 128 ≤ s.fbSize := by
  rw [State.pageInBounds_iff] at h
  simp only [pageAddress, cols, State.fbSize_eq]
  omega

/-- A push that sends something sends bytes of the buffer. -/
theorem State.push_fits {s : State} {page col count : Byte} (h : s.pushSends page col count = true) :
    pageAddress page + col.toNat + pushCount col count ≤ s.fbSize := by
  rw [State.pushSends_iff] at h
  simp only [pageAddress, cols, State.fbSize_eq, pushCount]
  omega

/-! ## The checked primitives -/

theorem State.memRead_of_le {s : State} {a n : Nat} (h : a + n ≤ s.fbSize) : s.memRead a n = some (s.fb.readBytes a n) :=
  if_pos h

theorem State.memWrite_of_le {s : State} {a : Nat} {bytes : List Byte} (h : a + bytes.length ≤ s.fbSize) :
    s.memWrite a bytes = some (s.setFb (s.fb.writeBytes a bytes)) := if_pos h

theorem State.respondRead_of_le {s : State} {a n : Nat} (h : a + n ≤ s.fbSize) :
    s.respondRead a n = .next (s.respond (s.fb.readBytes a n)) := by
  rw [State.respondRead, State.memRead_of_le h]

theorem State.writeRespond_of_le {s : State} {a : Nat} {bytes : List Byte} (h : a + bytes.length ≤ s.fbSize) :
    s.writeRespond a bytes = .next ((s.setFb (s.fb.writeBytes a bytes)).respond []) := by
  rw [State.writeRespond, State.memWrite_of_le h]

/-! ## A pixel drawn -/

section Draw

variable {s} {fb : Memory} (x y : Nat) (v : Bool)

theorem State.drawPixel_of_in (h : s.pixelInBounds x y = true) : s.drawPixel fb x y v = pixWrite s.cfg.flip fb x y v :=
  if_pos h

theorem State.drawPixel_of_out (h : s.pixelInBounds x y = false) : s.drawPixel fb x y v = fb := by
  simp [State.drawPixel, h]

theorem State.wf_drawPixel (h : fb.wf) : (s.drawPixel fb x y v).wf := by
  unfold State.drawPixel; split
  · exact wf_pixWrite _ _ _ _ h
  · exact h

theorem State.below_drawPixel (h : fb.below s.fbSize) : (s.drawPixel fb x y v).below s.fbSize := by
  unfold State.drawPixel; split
  · rename_i hin
    rw [State.pixelInBounds_iff] at hin
    exact below_pixWrite _ _ _ _ h (pixelAddress_lt hin.1 hin.2)
  · exact h

theorem State.read_drawPixel_ne {a : Nat} (ha : a ≠ pixelAddress x y) : (s.drawPixel fb x y v).read a = fb.read a := by
  unfold State.drawPixel; split
  · exact read_pixWrite_ne _ _ _ _ _ ha
  · rfl

/-- Outside the buffer nothing changes. -/
theorem State.read_drawPixel_outside {a : Nat} (ha : s.fbSize ≤ a) : (s.drawPixel fb x y v).read a = fb.read a := by
  unfold State.drawPixel; split
  · rename_i hin
    rw [State.pixelInBounds_iff] at hin
    have := pixelAddress_lt hin.1 hin.2
    rw [State.fbSize_eq] at ha
    exact read_pixWrite_ne _ _ _ _ _ (by omega)
  · rfl

/-- One pixel drawn, every pixel of the buffer read. -/
theorem State.pixRead_drawPixel (h : fb.wf) {x' y' : Nat} (hin : s.pixelInBounds x' y' = true) :
    pixRead s.cfg.flip (s.drawPixel fb x y v) x' y' =
      if x' = x ∧ y' = y then v else pixRead s.cfg.flip fb x' y' := by
  have hin' := State.pixelInBounds_iff.1 hin
  unfold State.drawPixel; split
  · rename_i hxy
    exact pixRead_pixWrite _ _ _ h (State.pixelInBounds_iff.1 hxy).1 hin'.1 _
  · rw [if_neg]
    rintro ⟨rfl, rfl⟩
    contradiction

end Draw

/-! ## Folding over a range -/

theorem foldl_range_succ {α : Type} (f : α → Nat → α) (a : α) (n : Nat) :
    (List.range (n + 1)).foldl f a = f ((List.range n).foldl f a) n := by
  rw [List.range_succ, List.foldl_append]; rfl

/-- What every step of a fold keeps, the fold keeps. -/
theorem foldl_range_keeps {α : Type} {P : α → Prop} {f : α → Nat → α} (n : Nat) (step : ∀ a, ∀ k < n, P a → P (f a k))
    {a : α} (ha : P a) : P ((List.range n).foldl f a) := by
  induction n with
  | zero => exact ha
  | succ n ih =>
    rw [foldl_range_succ]
    exact step _ n (by omega) (ih fun a k hk => step a k (by omega))

/-! ## A row and a bitmap drawn -/

section Blit

variable {s} {fb : Memory} (xpos ypos width height : Nat) (bitmap : List Byte)

theorem State.wf_blitRow (h : fb.wf) (j : Nat) : (s.blitRow xpos ypos width bitmap fb j).wf :=
  foldl_range_keeps (P := Memory.wf) _ (fun _ _ _ hm => State.wf_drawPixel _ _ _ hm) h

theorem State.below_blitRow (h : fb.below s.fbSize) (j : Nat) :
    (s.blitRow xpos ypos width bitmap fb j).below s.fbSize :=
  foldl_range_keeps (P := fun m => Memory.below m s.fbSize) _ (fun _ _ _ hm => State.below_drawPixel _ _ _ hm) h

theorem State.read_blitRow_ne {a : Nat} {j : Nat} (ha : ∀ i < width, a ≠ pixelAddress (xpos + i) (ypos + j)) :
    (s.blitRow xpos ypos width bitmap fb j).read a = fb.read a :=
  foldl_range_keeps (P := fun m => Memory.read m a = fb.read a) _
    (fun _ k hk hm => (State.read_drawPixel_ne _ _ _ (ha k hk)).trans hm) rfl

theorem State.read_blitRow_outside {a : Nat} (ha : s.fbSize ≤ a) (j : Nat) :
    (s.blitRow xpos ypos width bitmap fb j).read a = fb.read a :=
  foldl_range_keeps (P := fun m => Memory.read m a = fb.read a) _
    (fun _ _ _ hm => (State.read_drawPixel_outside _ _ _ ha).trans hm) rfl

/-- A row drawn: its pixels are the bitmap's, every other pixel of the buffer is kept. -/
theorem State.pixRead_blitRow (h : fb.wf) (j : Nat) {x y : Nat} (hin : s.pixelInBounds x y = true) :
    pixRead s.cfg.flip (s.blitRow xpos ypos width bitmap fb j) x y =
      if y = ypos + j ∧ xpos ≤ x ∧ x < xpos + width then bitmapBit width bitmap (x - xpos) j
      else pixRead s.cfg.flip fb x y := by
  have key : ∀ n, (List.foldl (fun m i => s.drawPixel m (xpos + i) (ypos + j) (bitmapBit width bitmap i j)) fb
        (List.range n)).wf ∧
      pixRead s.cfg.flip (List.foldl (fun m i => s.drawPixel m (xpos + i) (ypos + j) (bitmapBit width bitmap i j)) fb
        (List.range n)) x y =
      if y = ypos + j ∧ xpos ≤ x ∧ x < xpos + n then bitmapBit width bitmap (x - xpos) j
      else pixRead s.cfg.flip fb x y := by
    intro n
    induction n with
    | zero => exact ⟨h, by rw [if_neg (by omega)]; rfl⟩
    | succ n ih =>
      rw [foldl_range_succ]
      refine ⟨State.wf_drawPixel _ _ _ ih.1, ?_⟩
      rw [State.pixRead_drawPixel _ _ _ ih.1 hin, ih.2]
      by_cases hx : x = xpos + n ∧ y = ypos + j
      · rw [if_pos hx, if_pos (by omega), hx.1, Nat.add_sub_cancel_left]
      · rw [if_neg hx]
        have : (y = ypos + j ∧ xpos ≤ x ∧ x < xpos + n) ↔ (y = ypos + j ∧ xpos ≤ x ∧ x < xpos + (n + 1)) := by omega
        simp only [this]
  exact (key width).2

theorem State.wf_blit (h : s.fb.wf) : (s.blit xpos ypos width height bitmap).wf :=
  foldl_range_keeps (P := Memory.wf) _ (fun _ j _ hm => State.wf_blitRow _ _ _ _ hm j) h

theorem State.below_blit (h : s.fb.below s.fbSize) : (s.blit xpos ypos width height bitmap).below s.fbSize :=
  foldl_range_keeps (P := fun m => Memory.below m s.fbSize) _ (fun _ j _ hm => State.below_blitRow _ _ _ _ hm j) h

/-- A byte that holds no pixel of the rectangle is kept. -/
theorem State.read_blit_ne {a : Nat} (ha : ∀ i < width, ∀ j < height, a ≠ pixelAddress (xpos + i) (ypos + j)) :
    (s.blit xpos ypos width height bitmap).read a = s.fb.read a :=
  foldl_range_keeps (P := fun m => Memory.read m a = s.fb.read a) _
    (fun _ j hj hm => (State.read_blitRow_ne _ _ _ _ fun i hi => ha i hi j hj).trans hm) rfl

theorem State.read_blit_outside {a : Nat} (ha : s.fbSize ≤ a) :
    (s.blit xpos ypos width height bitmap).read a = s.fb.read a :=
  foldl_range_keeps (P := fun m => Memory.read m a = s.fb.read a) _
    (fun _ j _ hm => (State.read_blitRow_outside _ _ _ _ ha j).trans hm) rfl

/-- A bitmap drawn: the rectangle's pixels are the bitmap's, every other pixel of the buffer is kept. -/
theorem State.pixRead_blit (h : s.fb.wf) {x y : Nat} (hin : s.pixelInBounds x y = true) :
    pixRead s.cfg.flip (s.blit xpos ypos width height bitmap) x y =
      if xpos ≤ x ∧ x < xpos + width ∧ ypos ≤ y ∧ y < ypos + height then
        bitmapBit width bitmap (x - xpos) (y - ypos)
      else pixRead s.cfg.flip s.fb x y := by
  have key : ∀ n, (List.foldl (s.blitRow xpos ypos width bitmap) s.fb (List.range n)).wf ∧
      pixRead s.cfg.flip (List.foldl (s.blitRow xpos ypos width bitmap) s.fb (List.range n)) x y =
      if xpos ≤ x ∧ x < xpos + width ∧ ypos ≤ y ∧ y < ypos + n then bitmapBit width bitmap (x - xpos) (y - ypos)
      else pixRead s.cfg.flip s.fb x y := by
    intro n
    induction n with
    | zero => exact ⟨h, by rw [if_neg (by omega)]; rfl⟩
    | succ n ih =>
      rw [foldl_range_succ]
      refine ⟨State.wf_blitRow _ _ _ _ ih.1 n, ?_⟩
      rw [State.pixRead_blitRow _ _ _ _ ih.1 n hin, ih.2]
      by_cases hx : y = ypos + n ∧ xpos ≤ x ∧ x < xpos + width
      · rw [if_pos hx, if_pos (by omega), hx.1, Nat.add_sub_cancel_left]
      · rw [if_neg hx]
        have : (xpos ≤ x ∧ x < xpos + width ∧ ypos ≤ y ∧ y < ypos + n) ↔
            (xpos ≤ x ∧ x < xpos + width ∧ ypos ≤ y ∧ y < ypos + (n + 1)) := by omega
        simp only [this]
  exact (key height).2

end Blit

/-! ## Construction -/

theorem construct_of_legal {a : ConstructionArgs} (h : a.legal = true) : construct a = .next (State.constructed a) :=
  if_pos h

theorem construct_of_illegal {a : ConstructionArgs} (h : a.legal = false) : construct a = .refused .illegalConstruction := by
  simp [construct, h]

theorem State.reconstruct_of_legal {a : ConstructionArgs} (h : a.legal = true) :
    s.reconstruct a = .next { State.constructed a with
      channel := s.channel, turns := s.turns, draws := s.draws, earlier := s.handedOver } := if_pos h

/-- Legal arguments give legal registers, `cfg.PAGES = cfg.HEIGHT div 8` among them. -/
theorem ConfigRegs.legal_sampled {a : ConstructionArgs} (h : a.legal = true) : (ConfigRegs.sampled a).legal = true := by
  simp only [ConstructionArgs.legal, Bool.and_eq_true, decide_eq_true_eq] at h
  simp only [ConfigRegs.legal, ConfigRegs.sampled, BitVec.toNat_ofNat, Bool.and_eq_true, decide_eq_true_eq]
  have h1 : a.width % 2 ^ 8 = a.width := Nat.mod_eq_of_lt (by omega)
  have h2 : a.height % 2 ^ 12 = a.height := Nat.mod_eq_of_lt (by omega)
  have h3 : a.height / 8 % 2 ^ 9 = a.height / 8 := Nat.mod_eq_of_lt (by omega)
  rw [h1, h2, h3]
  omega

end Sys2Proof.Machine
end

