-- ==== Sys2Proof/Laws/Exec.lean ====
section
/-! SUPPORT. What a command can do, said once: a well-formed command always answers a next state, and a next state is
an answer, an answer after a store to the framebuffer, or a transaction handed over. -/

namespace Sys2Proof.Machine

/-! ## The arms -/

section Arms

variable (s : State)

theorem exec_fbGetPage (page : Byte) : exec (.fbGetPage page) s = execFbGetPage page s := rfl
theorem exec_fbSetPage (page : Byte) (d : List Byte) : exec (.fbSetPage page d) s = execFbSetPage page d s := rfl
theorem exec_fbGetPixel (x y : Coord) (inv : Bool) : exec (.fbGetPixel x y inv) s = execFbGetPixel x y inv s := rfl
theorem exec_fbSetPixel (x y : Coord) (val inv : Bool) : exec (.fbSetPixel x y val inv) s = execFbSetPixel x y val inv s := rfl
theorem exec_fbBlit (x y w h : Coord) (inv : Bool) (d : List Byte) : exec (.fbBlit x y w h inv d) s = execFbBlit x y w h inv d s := rfl
theorem exec_fbGetBuffer : exec .fbGetBuffer s = execFbGetBuffer s := rfl
theorem exec_fbSetBuffer (d : List Byte) : exec (.fbSetBuffer d) s = execFbSetBuffer d s := rfl
theorem exec_tmPush (page col count : Byte) : exec (.tmPush page col count) s = execTmPush page col count s := rfl
theorem exec_tmSetContrast (level : Byte) : exec (.tmSetContrast level) s = execTmSetContrast level s := rfl
theorem exec_tmSetScrollMode (selector : Byte) : exec (.tmSetScrollMode selector) s = execTmSetScrollMode selector s := rfl

end Arms

/-- What one command leaves, `i` having been executed in `s`. -/
inductive Effect (i : Instr) (s : State) : State → Prop where
  /-- A response, OK or EPRECOND, and nothing else. -/
  | answered (r : Response) (status : r.status = .ok ∨ r.status = .eprecond) (wf : r.wf) : Effect i s (s.answer r)
  /-- A store, canonical and inside the buffer, and the response OK. -/
  | stored (fb : Memory) (writes : i.writesFb = true) (wf : s.fb.wf → fb.wf)
      (below : s.fb.below s.fbSize → fb.below s.fbSize) :
      Effect i s ((s.setFb fb).answer { status := .ok, pix := false, data := [] })
  /-- A transaction for the selected backing, the response still to come. -/
  | emitted (txn : Transaction) (kind : i.emits txn = true) (bounded : txn.bounded) :
      Effect i s (s.setPhase (.pending s.cfg.transportKind txn))

/-- The bytes a push sends are within the bound of R140. -/
theorem push_bounded {s : State} {page col count : Byte} (h : s.pushSends page col count = true) (a : Nat) :
    (Transaction.writeRegion page col (s.fb.readBytes a (pushCount col count))).bounded := by
  rw [State.pushSends_iff] at h
  simp only [Transaction.bounded, Memory.length_readBytes, pushCount, cols]
  omega

theorem execTmPush_of_sends {s : State} {page col count : Byte} (h : s.pushSends page col count = true) :
    execTmPush page col count s = .next (s.emit (.writeRegion page col
      (s.fb.readBytes (pageAddress page + col.toNat) (pushCount col count)))) := by
  rw [execTmPush, if_pos h, State.memRead_of_le (State.push_fits h)]

theorem execTmPush_of_not_sends {s : State} {page col count : Byte} (h : s.pushSends page col count = false) :
    execTmPush page col count s = .next (s.respond []) := by
  rw [execTmPush, h, if_neg (by simp)]

theorem execFbGetPage_of_in {s : State} {page : Byte} (h : s.pageInBounds page = true) :
    execFbGetPage page s = .next (s.respond (s.fb.readBytes (pageAddress page) 128)) := by
  rw [execFbGetPage, if_pos h, State.respondRead_of_le (State.page_fits h)]

theorem execFbGetPage_of_out {s : State} {page : Byte} (h : s.pageInBounds page = false) :
    execFbGetPage page s = .next (s.respond (List.replicate 128 0)) := by
  rw [execFbGetPage, h, if_neg (by simp)]

theorem execFbSetPage_of_in {s : State} {page : Byte} {d : List Byte} (hd : d.length = 128)
    (h : s.pageInBounds page = true) :
    execFbSetPage page d s = .next ((s.setFb (s.fb.writeBytes (pageAddress page) d)).respond []) := by
  rw [execFbSetPage, if_neg (by omega), if_pos h, State.writeRespond_of_le (by rw [hd]; exact State.page_fits h)]

theorem execFbSetPage_of_out {s : State} {page : Byte} {d : List Byte} (hd : d.length = 128)
    (h : s.pageInBounds page = false) : execFbSetPage page d s = .next (s.respond []) := by
  rw [execFbSetPage, if_neg (by omega), h, if_neg (by simp)]

theorem execFbGetBuffer_eq (s : State) : execFbGetBuffer s = .next (s.respond (s.fb.readBytes 0 s.fbSize)) :=
  State.respondRead_of_le (by omega)

theorem execFbSetBuffer_of_length {s : State} {d : List Byte} (hd : d.length = s.fbSize) :
    execFbSetBuffer d s = .next ((s.setFb (s.fb.writeBytes 0 d)).respond []) := by
  rw [execFbSetBuffer, if_neg (by omega), State.writeRespond_of_le (by omega)]

theorem execFbBlit_of_misfit {s : State} {xpos ypos width height : Coord} {inv : Bool} {d : List Byte}
    (hd : d.length = blitPayloadBytes width height) (h : width.toNat % 8 ≠ 0) :
    execFbBlit xpos ypos width height inv d s = .next (s.raise .eprecond) := by
  rw [execFbBlit, if_neg (by omega), if_pos h]

theorem execFbBlit_of_fit {s : State} {xpos ypos width height : Coord} {inv : Bool} {d : List Byte}
    (hd : d.length = blitPayloadBytes width height) (h : width.toNat % 8 = 0) :
    execFbBlit xpos ypos width height inv d s = .next ((s.setFb (s.blit xpos.toNat ypos.toNat width.toNat height.toNat
      (if inv then invert d else d))).respond []) := by
  rw [execFbBlit, if_neg (by omega), if_neg (by omega)]

/-- The store of a run of bytes, as an effect. -/
theorem Effect.ofWriteBytes {i : Instr} {s : State} (hi : i.writesFb = true) {a : Nat} {d : List Byte}
    (h : a + d.length ≤ s.fbSize) : Effect i s ((s.setFb (s.fb.writeBytes a d)).respond []) :=
  .stored _ hi (fun hw => Memory.wf_writeBytes hw _ _) fun hb => Memory.below_writeBytes hb _ h

/-- A well-formed command answers a next state, with one of the three effects. -/
theorem exec_effect {i : Instr} {s : State} (hwf : i.wf s.pageCount = true) : ∃ t, exec i s = .next t ∧ Effect i s t := by
  have okWf : ∀ (v : Bool) (d : List Byte), Response.wf { status := .ok, pix := v, data := d } := by
    intro v d h; exact absurd rfl h
  cases i with
  | fbGetPage page =>
    cases h : s.pageInBounds page
    · exact ⟨_, execFbGetPage_of_out h, .answered _ (.inl rfl) (okWf _ _)⟩
    · exact ⟨_, execFbGetPage_of_in h, .answered _ (.inl rfl) (okWf _ _)⟩
  | fbSetPage page d =>
    have hd : d.length = 128 := by simpa [Instr.wf] using hwf
    cases h : s.pageInBounds page
    · exact ⟨_, execFbSetPage_of_out hd h, .answered _ (.inl rfl) (okWf _ _)⟩
    · exact ⟨_, execFbSetPage_of_in hd h, .ofWriteBytes rfl (by rw [hd]; exact State.page_fits h)⟩
  | fbGetPixel x y inv =>
    simp only [exec, execFbGetPixel]
    split
    · exact ⟨_, rfl, .answered _ (.inl rfl) (okWf _ _)⟩
    · exact ⟨_, rfl, .answered _ (.inl rfl) (okWf _ _)⟩
  | fbSetPixel x y val inv =>
    exact ⟨_, rfl, .stored _ rfl (fun hw => State.wf_drawPixel _ _ _ hw) fun hb => State.below_drawPixel _ _ _ hb⟩
  | fbBlit xpos ypos width height inv d =>
    have hd : d.length = blitPayloadBytes width height := by simpa [Instr.wf] using hwf
    by_cases h : width.toNat % 8 = 0
    · exact ⟨_, execFbBlit_of_fit hd h,
        .stored _ rfl (fun hw => State.wf_blit _ _ _ _ _ hw) fun hb => State.below_blit _ _ _ _ _ hb⟩
    · exact ⟨_, execFbBlit_of_misfit hd h, .answered _ (.inr rfl) fun _ => ⟨rfl, rfl⟩⟩
  | fbGetBuffer => exact ⟨_, execFbGetBuffer_eq s, .answered _ (.inl rfl) (okWf _ _)⟩
  | fbSetBuffer d =>
    have hd : d.length = s.fbSize := by simpa [Instr.wf, State.fbSize_eq] using hwf
    exact ⟨_, execFbSetBuffer_of_length hd, .ofWriteBytes rfl (by omega)⟩
  | tmPush page col count =>
    cases h : s.pushSends page col count
    · exact ⟨_, execTmPush_of_not_sends h, .answered _ (.inl rfl) (okWf _ _)⟩
    · exact ⟨_, execTmPush_of_sends h, .emitted _ (by simp [Instr.emits]) (push_bounded h _)⟩
  | tmSetContrast level => exact ⟨_, rfl, .emitted _ (by simp [Instr.emits]) trivial⟩
  | tmSetScrollMode selector => exact ⟨_, rfl, .emitted _ (by simp [Instr.emits]) trivial⟩

/-- A command that is not well formed stops. -/
theorem exec_of_not_wf {i : Instr} {s : State} (h : i.wf s.pageCount = false) : exec i s = .fault .payloadLength := by
  cases i <;> simp only [Instr.wf, Bool.true_eq_false, beq_eq_false_iff_ne, ne_eq] at h
  · exact if_pos h
  · exact if_pos h
  · exact if_pos h

/-- Whatever a command leaves is one of the three effects. -/
theorem effect_of_exec {i : Instr} {s t : State} (h : exec i s = .next t) : i.wf s.pageCount = true ∧ Effect i s t := by
  cases hwf : i.wf s.pageCount
  · rw [exec_of_not_wf hwf] at h; cases h
  · obtain ⟨u, hu, he⟩ := exec_effect hwf
    rw [hu] at h
    exact ⟨rfl, Host.Outcome.next.inj h ▸ he⟩

end Sys2Proof.Machine
end

