-- ==== Sys2Proof/Laws/Step.lean ====
section
/-! SUPPORT. What one step can do, said once: the reading of the command channel, and the inversion lemma of `step`. -/

namespace Sys2Proof.Machine

/-! ## The channel -/

@[simp] theorem channelWords_append (a b : List ChannelWord) : channelWords (a ++ b) = channelWords a ++ channelWords b := by
  simp [channelWords]

@[simp] theorem channelWords_ownerWords (ws : List Word) : channelWords (ownerWords ws) = ws := by
  simp [channelWords, ownerWords, Function.comp_def]

@[simp] theorem length_ownerWords (ws : List Word) : (ownerWords ws).length = ws.length := by simp [ownerWords]

@[simp] theorem length_channelWords (ws : List ChannelWord) : (channelWords ws).length = ws.length := by
  simp [channelWords]

@[simp] theorem sentByOwner_ownerWords (ws : List Word) : sentByOwner (ownerWords ws) = true := by
  simp [sentByOwner, ownerWords]

theorem sentByOwner_take {ws : List ChannelWord} (h : sentByOwner ws = true) (n : Nat) : sentByOwner (ws.take n) = true := by
  simp only [sentByOwner, List.all_eq_true] at h ⊢
  exact fun w hw => h w (List.mem_of_mem_take hw)

theorem sentByOwner_drop {ws : List ChannelWord} (h : sentByOwner ws = true) (n : Nat) : sentByOwner (ws.drop n) = true := by
  simp only [sentByOwner, List.all_eq_true] at h ⊢
  exact fun w hw => h w (List.mem_of_mem_drop hw)

/-! ## Reading a command -/

/-- A decoded command is well formed: its payload has been read at its full length. -/
theorem wf_of_decode {pages : Nat} {ws : List Word} {i : Instr} {n : Nat} (h : decode pages ws = .command i n) :
    i.wf pages = true := by
  obtain ⟨w0, tail, op, w1, rfl, -, -, rfl, hlen, -, rfl⟩ := decode_command_inv h
  have hlen' : op.headerWords + ceil4 (op.payloadBytes pages w1) ≤ tail.length + 1 := by
    simpa [Opcode.commandLength] using hlen
  have hpay : (unpackBytes (op.payloadBytes pages w1) (tail.drop (op.headerWords - 1))).length =
      op.payloadBytes pages w1 := by
    have hpos : 1 ≤ op.headerWords := by cases op <;> simp [Opcode.headerWords]
    refine length_unpackBytes ?_
    rw [List.length_drop]
    omega
  cases op <;> simp only [assemble, Instr.wf, beq_iff_eq] <;> exact hpay

/-- A command read off the channel. -/
theorem State.fetch_command_inv {s : State} {i : Instr} {n : Nat} (h : s.fetch = .command i n) :
    decode s.pageCount (channelWords s.channel) = .command i n ∧ sentByOwner (s.channel.take n) = true := by
  unfold State.fetch at h
  split at h
  · split at h
    · obtain ⟨rfl, rfl⟩ := Fetched.command.inj h; exact ⟨‹_›, ‹_›⟩
    · cases h
  · split at h <;> cases h
  · split at h <;> cases h

/-- A reserved encoding read off the channel. -/
theorem State.fetch_illegal_inv {s : State} {n : Nat} (h : s.fetch = .illegal n) :
    (∃ why, decode s.pageCount (channelWords s.channel) = .illegal why n) ∧ sentByOwner (s.channel.take n) = true := by
  unfold State.fetch at h
  split at h
  · split at h <;> cases h
  · split at h
    · cases h; exact ⟨⟨_, ‹_›⟩, ‹_›⟩
    · cases h
  · split at h <;> cases h

/-- With one owner no word is foreign. -/
theorem State.fetch_ne_foreign {s : State} (h : s.SingleOwner) : s.fetch ≠ .foreign := by
  unfold State.fetch
  split
  · rw [if_pos (sentByOwner_take h _)]; simp
  · rw [if_pos (sentByOwner_take h _)]; simp
  · rw [if_pos h]; simp

theorem State.fetch_of_command {s : State} {i : Instr} {n : Nat}
    (h : decode s.pageCount (channelWords s.channel) = .command i n) (ho : sentByOwner (s.channel.take n) = true) :
    s.fetch = .command i n := by simp [State.fetch, h, ho]

theorem State.fetch_of_illegal {s : State} {why : IllegalReason} {n : Nat}
    (h : decode s.pageCount (channelWords s.channel) = .illegal why n) (ho : sentByOwner (s.channel.take n) = true) :
    s.fetch = .illegal n := by simp [State.fetch, h, ho]

/-! ## The owner's turn -/

/-- An owner's turn is the block waiting: no complete command, and no foreign word. -/
theorem State.fetch_awaiting_iff {s : State} :
    s.fetch = .awaiting ↔ decode s.pageCount (channelWords s.channel) = .incomplete ∧ s.SingleOwner := by
  unfold State.fetch
  split
  · split <;> simp [*]
  · split <;> simp [*]
  · split <;> simp [State.SingleOwner, *]

/-- What it is for words to be in step. -/
theorem State.inStep_iff (s : State) (ws : List Word) :
    s.inStep ws = true ↔ ws = [] ∨
      (∃ i, decode s.pageCount (channelWords s.channel ++ ws) = .command i (s.channel.length + ws.length)) ∨
      ∃ why, decode s.pageCount (channelWords s.channel ++ ws) = .illegal why (s.channel.length + ws.length) := by
  unfold State.inStep
  split <;> simp_all

theorem State.ownerSends_of_inStep {s : State} (h : s.inStep s.ownerNext = true) : s.ownerSends = s.ownerNext := by
  simp [State.ownerSends, h]

theorem State.ownerSends_of_outOfStep {s : State} (h : s.inStep s.ownerNext = false) : s.ownerSends = [] := by
  simp [State.ownerSends, h]

theorem State.ownerTurn_of_inStep {s : State} (h : s.inStep s.ownerNext = true) :
    s.ownerTurn = { s with
      channel := s.channel ++ ownerWords s.ownerNext, received := s.responses.length, turns := s.turns + 1 } := by
  simp [State.ownerTurn, State.ownerSends, h]

/-- Out of step the owner only reads the responses. -/
theorem State.ownerTurn_of_outOfStep {s : State} (h : s.inStep s.ownerNext = false) :
    s.ownerTurn = { s with received := s.responses.length } := by
  simp [State.ownerTurn, State.ownerSends, h, ownerWords]

/-- And is stuck. -/
theorem State.ownerTurn_stuck {s : State} (h : s.inStep s.ownerNext = false) : s.ownerTurn.ownerTurn = s.ownerTurn := by
  rw [State.ownerTurn_of_outOfStep h]
  exact State.ownerTurn_of_outOfStep (s := { s with received := s.responses.length }) h

/-! ## The step -/

/-- The block's step. -/
theorem step_of_ready {s : State} (h : s.Ready) : step s = s.runCommand := by
  simp [step, h.noReset, h.legal, h.idle]

/-- The pending backing's step. -/
theorem step_of_pending {s : State} {bk : Backing} {txn : Transaction} (hr : s.resetRequest = none)
    (hl : s.cfg.legal = true) (hp : s.tmPhase = .pending bk txn) : step s = .next (s.backingReturns bk txn) := by
  simp [step, hr, hl, hp]

/-- The step after a transaction has been handed over. -/
theorem step_setPhase_pending {s : State} {bk : Backing} {txn : Transaction} (hr : s.resetRequest = none)
    (hl : s.cfg.legal = true) :
    step (s.setPhase (.pending bk txn)) = .next ((s.setPhase (.pending bk txn)).backingReturns bk txn) :=
  step_of_pending (s := s.setPhase (.pending bk txn)) hr hl rfl

theorem Status.ofOutcome_eq (o : TxnOutcome) : Status.ofOutcome o = if o = .ack then .ok else .busfail := by
  cases o <;> rfl

/-- Whatever the backing returns, the reply is the record of that outcome and its status. -/
theorem State.backingReturns_cases (s : State) (bk : Backing) (txn : Transaction) :
    ∃ o, s.backingReturns bk txn = ((s.record bk txn o).setPhase .idle).answer
      { status := if o = .ack then .ok else .busfail, pix := false, data := [] } :=
  ⟨_, by rw [← Status.ofOutcome_eq]; rfl⟩

/-- The surrounding system's step. -/
theorem step_of_request {s : State} {a : ConstructionArgs} (h : s.resetRequest = some a) : step s = s.reconstruct a := by
  simp [step, h]

/-- Without a construction, a step that answers a next state is one of four: the backing's reply, a command executed, a
reserved encoding reported, or the owner's turn. -/
theorem step_cases {s t : State} (hr : s.resetRequest = none) (h : step s = .next t) :
    s.cfg.legal = true ∧
      ((∃ bk txn, s.tmPhase = .pending bk txn ∧ t = s.backingReturns bk txn) ∨
        (s.tmPhase = .idle ∧
          ((∃ i n, s.fetch = .command i n ∧ exec i (s.consume n) = .next t) ∨
            (∃ n, s.fetch = .illegal n ∧ t = (s.consume n).raise .illegal) ∨
            (s.fetch = .awaiting ∧ t = s.ownerTurn)))) := by
  simp only [step, hr] at h
  split at h
  · rename_i hl
    refine ⟨hl, ?_⟩
    split at h
    · rename_i bk txn hp
      exact .inl ⟨bk, txn, hp, (Host.Outcome.next.inj h).symm⟩
    · rename_i hp
      refine .inr ⟨hp, ?_⟩
      unfold State.runCommand at h
      split at h
      · exact .inl ⟨_, _, ‹_›, h⟩
      · exact .inr (.inl ⟨_, ‹_›, (Host.Outcome.next.inj h).symm⟩)
      · exact .inr (.inr ⟨‹_›, (Host.Outcome.next.inj h).symm⟩)
      · cases h
  · cases h

end Sys2Proof.Machine
end

