-- ==== Sys2Proof/Laws/Panel.lean ====
section
/-! SUPPORT. The laws of what is known of the panel: one transaction's effect on one byte, the two phases, and that a
scroll command is never forgotten. -/

namespace Sys2Proof.Machine

/-! ## One transaction -/

@[simp] theorem PanelByte.after_scrolling (a : Nat) (e : HistEntry) : PanelByte.after a .scrolling e = .scrolling := rfl

@[simp] theorem PanelByte.after_scrollMode (a : Nat) (p : PanelByte) (bk : Backing) (selector : Byte) (o : TxnOutcome) :
    p.after a { backing := bk, txn := .scrollMode selector, outcome := o } = .scrolling := by
  cases p <;> rfl

@[simp] theorem PanelByte.after_setContrast (a : Nat) (p : PanelByte) (bk : Backing) (level : Byte) (o : TxnOutcome) :
    p.after a { backing := bk, txn := .setContrast level, outcome := o } = p := by
  cases p <;> rfl

/-- A pushed region, where the panel does not scroll: one lemma for its bytes, the other bytes and both outcomes. -/
theorem PanelByte.after_writeRegion {a : Nat} {p : PanelByte} (h : p ≠ .scrolling) (bk : Backing) (page col : Byte)
    (bytes : List Byte) (o : TxnOutcome) :
    p.after a { backing := bk, txn := .writeRegion page col bytes, outcome := o } =
      if pageAddress page + col.toNat ≤ a ∧ a < pageAddress page + col.toNat + bytes.length then
        match o with
        | .ack => .known (bytes.getD (a - (pageAddress page + col.toNat)) 0)
        | .fail => .unknown
      else p := by
  cases p
  · rfl
  · rfl
  · exact absurd rfl h

/-- Bytes outside a pushed region are as they were. -/
theorem PanelByte.after_writeRegion_outside {a : Nat} {page col : Byte} {bytes : List Byte}
    (h : a < pageAddress page + col.toNat ∨ pageAddress page + col.toNat + bytes.length ≤ a) (p : PanelByte)
    (bk : Backing) (o : TxnOutcome) : p.after a { backing := bk, txn := .writeRegion page col bytes, outcome := o } = p := by
  by_cases hp : p = .scrolling
  · subst hp; rfl
  · rw [PanelByte.after_writeRegion hp, if_neg (by omega)]

/-- Only a scroll command makes the panel count as scrolling. -/
theorem PanelByte.after_eq_scrolling_iff (a : Nat) (p : PanelByte) (e : HistEntry) :
    p.after a e = .scrolling ↔ p = .scrolling ∨ e.txn.isScroll = true := by
  obtain ⟨bk, txn, o⟩ := e
  cases txn with
  | writeRegion page col bytes =>
    by_cases hp : p = .scrolling
    · subst hp; simp
    · rw [PanelByte.after_writeRegion hp]
      split
      · cases o <;> simp [hp, Transaction.isScroll]
      · simp [hp, Transaction.isScroll]
  | setContrast level => simp [Transaction.isScroll]
  | scrollMode selector => simp [Transaction.isScroll]

/-- And no later transaction unmakes it. -/
theorem PanelByte.foldl_after_eq_scrolling_iff (a : Nat) (hist : List HistEntry) (p : PanelByte) :
    hist.foldl (PanelByte.after a) p = .scrolling ↔ p = .scrolling ∨ ∃ e ∈ hist, e.txn.isScroll = true := by
  induction hist generalizing p with
  | nil => simp
  | cons e hist ih =>
    rw [List.foldl_cons, ih, PanelByte.after_eq_scrolling_iff, or_assoc]
    simp

/-! ## The state -/

variable (s : State) (a : Nat)

theorem State.panelByte_of_idle {s : State} (h : s.tmPhase = .idle) (a : Nat) :
    s.panelByte a = s.hist.foldl (PanelByte.after a) (PanelByte.before s.earlier) := by
  simp [State.panelByte, h]

theorem State.panelByte_of_pending {s : State} {bk : Backing} {txn : Transaction} (h : s.tmPhase = .pending bk txn)
    (a : Nat) : s.panelByte a = (s.hist.foldl (PanelByte.after a) (PanelByte.before s.earlier)).after a
      { backing := bk, txn := txn, outcome := .fail } := by
  simp [State.panelByte, h]

/-- A completed transaction is counted with its outcome. -/
theorem State.panelByte_complete (bk : Backing) (txn : Transaction) (o : TxnOutcome) :
    (s.complete bk txn o).panelByte a =
      (s.hist.foldl (PanelByte.after a) (PanelByte.before s.earlier)).after a
        { backing := bk, txn := txn, outcome := o } := by
  rw [State.panelByte_of_idle (by simp)]
  simp [List.foldl_append]

/-- The view rests on four fields only. -/
theorem State.panelByte_congr {s t : State} (hh : t.hist = s.hist) (he : t.earlier = s.earlier)
    (hp : t.tmPhase = s.tmPhase) (a : Nat) : t.panelByte a = s.panelByte a := by
  simp only [State.panelByte, hh, he, hp]

/-- The panel may be scrolling exactly when a scroll command has been handed over, of whatever instance and outcome. -/
theorem State.panelByte_eq_scrolling_iff :
    s.panelByte a = .scrolling ↔ ∃ e ∈ s.handedOver, e.txn.isScroll = true := by
  have hb : PanelByte.before s.earlier = .scrolling ↔ ∃ e ∈ s.earlier, e.txn.isScroll = true := by
    simp [PanelByte.before]
  cases hp : s.tmPhase with
  | idle =>
    rw [State.panelByte_of_idle hp, PanelByte.foldl_after_eq_scrolling_iff, hb]
    simp [State.handedOver, hp, HistEntry.past, or_and_right, exists_or]
  | pending bk txn =>
    rw [State.panelByte_of_pending hp, PanelByte.after_eq_scrolling_iff, PanelByte.foldl_after_eq_scrolling_iff, hb]
    simp [State.handedOver, hp, HistEntry.past, or_and_right, exists_or, or_assoc]

end Sys2Proof.Machine
end

