-- ==== Sys2Proof/Laws/PerInstr.lean ====
section
/-! SUPPORT. Facts about every command as syntax, one lemma for each constructor: an encoded command has the length
spec/30_encoding.md R61 gives it. -/

namespace Sys2Proof.Laws.EncodeLength

/-- The words of a well-formed command are as many as R61's table says. -/
def Statement (i : Instr) : Prop := ∀ pages : Nat, i.wf pages = true → (encode i).length = i.lengthWords pages

theorem fbGetPage (page : Byte) : Statement (.fbGetPage page) := fun _ _ => rfl

theorem fbSetPage (page : Byte) (payload : List Byte) : Statement (.fbSetPage page payload) := by
  intro pages h
  have hd : payload.length = 128 := by simpa [Instr.wf] using h
  simp [encode, Instr.lengthWords, hd, ceil4]

theorem fbGetPixel (x y : Coord) (inv : Bool) : Statement (.fbGetPixel x y inv) := fun _ _ => rfl

theorem fbSetPixel (x y : Coord) (val inv : Bool) : Statement (.fbSetPixel x y val inv) := fun _ _ => rfl

theorem fbBlit (xpos ypos width height : Coord) (inv : Bool) (payload : List Byte) :
    Statement (.fbBlit xpos ypos width height inv payload) := by
  intro pages h
  have hd : payload.length = blitPayloadBytes width height := by simpa [Instr.wf] using h
  simp only [encode, Instr.lengthWords, List.length_cons, length_packBytes, hd]
  omega

theorem fbGetBuffer : Statement .fbGetBuffer := fun _ _ => rfl

theorem fbSetBuffer (payload : List Byte) : Statement (.fbSetBuffer payload) := by
  intro pages h
  have hd : payload.length = pages * 128 := by simpa [Instr.wf] using h
  simp only [encode, Instr.lengthWords, List.length_cons, length_packBytes, hd, ceil4]
  omega

theorem tmPush (page col count : Byte) : Statement (.tmPush page col count) := fun _ _ => rfl

theorem tmSetContrast (level : Byte) : Statement (.tmSetContrast level) := fun _ _ => rfl

theorem tmSetScrollMode (selector : Byte) : Statement (.tmSetScrollMode selector) := fun _ _ => rfl

end Sys2Proof.Laws.EncodeLength

namespace Sys2Proof

/-- The family's statement for whichever command: an encoded command has R61's length. -/
theorem length_encode {pages : Nat} {i : Instr} (h : i.wf pages = true) : (encode i).length = i.lengthWords pages := by
  cases i with
  | fbGetPage page => exact Laws.EncodeLength.fbGetPage page pages h
  | fbSetPage page d => exact Laws.EncodeLength.fbSetPage page d pages h
  | fbGetPixel x y inv => exact Laws.EncodeLength.fbGetPixel x y inv pages h
  | fbSetPixel x y val inv => exact Laws.EncodeLength.fbSetPixel x y val inv pages h
  | fbBlit xpos ypos width height inv d => exact Laws.EncodeLength.fbBlit xpos ypos width height inv d pages h
  | fbGetBuffer => exact Laws.EncodeLength.fbGetBuffer pages h
  | fbSetBuffer d => exact Laws.EncodeLength.fbSetBuffer d pages h
  | tmPush page col count => exact Laws.EncodeLength.tmPush page col count pages h
  | tmSetContrast level => exact Laws.EncodeLength.tmSetContrast level pages h
  | tmSetScrollMode selector => exact Laws.EncodeLength.tmSetScrollMode selector pages h

end Sys2Proof
end

