-- ==== Sys2Proof/Tests/Slice0.lean ====
section
/-! SUPPORT. Small tests of the model. Every expected value is one that spec/95_test_vectors.md, an example of a rule or
an encoding table of spec/30_encoding.md gives; the vector is named in each docstring. The last part has, for every
obligation with hypotheses, a concrete input that meets them. -/

namespace Sys2Proof.Tests

open Sys2Proof Sys2Proof.Machine

/-! ## Helpers -/

/-- The outcome is a next state with this property. -/
def leaves (o : Host.Outcome State Fault Refusal) (p : State → Bool) : Bool :=
  match o with
  | .next t => p t
  | .fault _ | .refused _ => false

/-- The outcome is a fault for this reason. -/
def faults (o : Host.Outcome State Fault Refusal) (why : Fault) : Bool :=
  match o with
  | .fault r => r == why
  | .next _ | .refused _ => false

/-- The outcome is a refusal for this reason. -/
def refuses (o : Host.Outcome State Fault Refusal) (why : Refusal) : Bool :=
  match o with
  | .refused r => r == why
  | .next _ | .fault _ => false

/-- An instance of the given geometry, right after construction. -/
def built (pages kind flip : Nat) : State :=
  State.constructed { width := 128, height := 8 * pages, transportKind := kind, flip := flip }

/-- The state with these words of the owner's on the channel. -/
def sends (s : State) (ws : List Word) : State := { s with channel := ownerWords ws }

/-- The words of the last response. -/
def reply (s : State) : List Word := (s.responses.getLast?.map Response.words).getD []

/-- One step on these words leaves this framebuffer, this reply and this `pc`, and nothing handed to a backing. -/
def gives (s : State) (ws : List Word) (fb : Memory) (words : List Word) (pc : Nat) : Bool :=
  leaves (step (sends s ws)) fun t =>
    decide (t.fb = fb) && decide (reply t = words) && decide (t.pc = pc) && decide (t.channel = []) &&
      decide (t.tmPhase = .idle) && decide (t.hist = [])

/-- One step on this word hands this transaction to this backing, with no reply yet and the framebuffer as before. -/
def hands (s : State) (w : Word) (bk : Backing) (txn : Transaction) : Bool :=
  leaves (step (sends s [w])) fun t =>
    decide (t.tmPhase = .pending bk txn) && decide (t.responses = s.responses) && decide (t.fb = s.fb) &&
      decide (t.pc = s.pc + 1)

/-- A run of equal bytes as memory cells. -/
def cells (a n : Nat) (v : Byte) : Memory := (List.range n).map fun k => (a + k, v)

/-- The bytes 0, 1, .., 127. -/
def ramp : List Byte := (List.range 128).map (BitVec.ofNat 8)

/-- The words 0x03020100, 0x07060504, .., 0x7F7E7D7C (G6). -/
def rampWords : List Word := (List.range 32).map fun k => 0x03020100 + BitVec.ofNat 32 k * 0x04040404

/-! ## WellFormed: an ill-formed term for each check -/

theorem test_wf_refuses_short_page_payload : (Instr.fbSetPage 3 (List.replicate 127 0xAA)).wf 8 = false := by
  decide +kernel

theorem test_wf_accepts_page_payload : (Instr.fbSetPage 3 (List.replicate 128 0xAA)).wf 8 = true := by decide +kernel

/-- B7: 12 columns take two bytes a row. -/
theorem test_wf_refuses_blit_payload : (Instr.fbBlit 0 0 12 2 false [0, 0, 0]).wf 8 = false := by decide

theorem test_wf_accepts_blit_payload : (Instr.fbBlit 0 0 12 2 false [0, 0, 0, 0]).wf 8 = true := by decide

/-- K2: one page of bytes is not two pages of bytes. -/
theorem test_wf_refuses_buffer_of_other_size : (Instr.fbSetBuffer ramp).wf 2 = false := by decide +kernel

theorem test_wf_accepts_buffer : (Instr.fbSetBuffer ramp).wf 1 = true := by decide +kernel

theorem test_ill_formed_page_faults : faults (exec (.fbSetPage 3 [1]) State.reset) .payloadLength = true := by decide

theorem test_ill_formed_blit_faults : faults (exec (.fbBlit 0 0 8 1 false []) State.reset) .payloadLength = true := by
  decide

theorem test_ill_formed_buffer_faults : faults (exec (.fbSetBuffer [1]) State.reset) .payloadLength = true := by decide

/-! ## Decoding: words written out from the tables of R65 to R71, fields at boundary values -/

/-- R65: op 0001, twenty zeros, page 11111111. -/
theorem test_decode_getpage : decode 8 [0b00010000000000000000000011111111] = .command (.fbGetPage 0xFF) 1 := by decide

/-- R65, G6. -/
theorem test_decode_setpage : decode 8 (0b00100000000000000000000010000001 :: rampWords) =
    .command (.fbSetPage 0x81 ramp) 33 := by decide +kernel

/-- R66: op 0011, inv 1, val 0, 00, y 000000000001, x 100000000000. -/
theorem test_decode_getpix : decode 8 [0b00111000000000000001100000000000] = .command (.fbGetPixel 0x800 1 true) 1 := by
  decide

/-- R66: op 0100, inv 0, val 1, 00, y 100000000000, x 000000000001. -/
theorem test_decode_setpix_val : decode 8 [0b01000100100000000000000000000001] =
    .command (.fbSetPixel 1 0x800 true false) 1 := by decide

/-- X4's word: inv without val. -/
theorem test_decode_setpix_inv : decode 8 [0x4800A005] = .command (.fbSetPixel 5 10 false true) 1 := by decide

/-- R67: op 0101, inv 1, 000, ypos 000000000010, xpos 100000000000; then 00000000, height 000000000001, width
000000001000. -/
theorem test_decode_blit : decode 8 [0b01011000000000000010100000000000, 0b00000000000000000001000000001000, 0xFFFFFF5A] =
    .command (.fbBlit 0x800 2 8 1 true [0x5A]) 3 := by decide

/-- E6: a blit of 24 by 3 is five words long. -/
theorem test_decode_blit_length : decode 8 [0x50000000, 0x00003018, 0x03020100, 0x07060504, 0x00000008] =
    .command (.fbBlit 0 0 24 3 false [0, 1, 2, 3, 4, 5, 6, 7, 8]) 5 := by decide

theorem test_decode_getbuf : decode 8 [0b01100000000000000000000000000000] = .command .fbGetBuffer 1 := by decide

/-- K2, E8: the length follows the number of pages. -/
theorem test_decode_setbuf : decode 1 (0x70000000 :: rampWords) = .command (.fbSetBuffer ramp) 33 ∧
    decode 2 (0x70000000 :: (rampWords ++ rampWords)) = .command (.fbSetBuffer (ramp ++ ramp)) 65 := by decide +kernel

/-- R69: op 1000, 0000, count 00000011, col 10000000, page 00000001. -/
theorem test_decode_push : decode 8 [0b10000000000000111000000000000001] = .command (.tmPush 1 0x80 3) 1 := by decide

theorem test_decode_contrast : decode 8 [0b10010000000000000000000001111111] = .command (.tmSetContrast 0x7F) 1 := by decide

theorem test_decode_scroll : decode 8 [0b10100000000000000000000000101111] = .command (.tmSetScrollMode 0x2F) 1 := by decide

/-- E1 to E3. -/
theorem test_decode_reserved_opcodes : decode 8 [0x00000000] = .illegal .reservedOpcode 1 ∧
    decode 8 [0xB0000000] = .illegal .reservedOpcode 1 ∧ decode 8 [0xFFFFFFFF] = .illegal .reservedOpcode 1 := by decide

/-- X15, X16, K5, T12, T14, B11: a reserved bit in each format. -/
theorem test_decode_reserved_bits : decode 8 [0x3400A005] = .illegal .reservedBit 1 ∧
    decode 8 [0x4500A005] = .illegal .reservedBit 1 ∧ decode 8 [0x60000001] = .illegal .reservedBit 1 ∧
    decode 8 [0x81000000] = .illegal .reservedBit 1 ∧ decode 8 [0x90000100] = .illegal .reservedBit 1 ∧
    decode 8 [0x50000000, 0x01001008, 0] = .illegal .reservedBit 3 := by decide

/-- R61: with a word missing the command is not complete. -/
theorem test_decode_incomplete : decode 8 [] = .incomplete ∧ decode 8 [0x50000000] = .incomplete ∧
    decode 8 [0x50000000, 0x00001008] = .incomplete ∧ decode 8 [0x20000103] = .incomplete := by decide

/-- The opcode table's rows, operand words of zeros, at the reset instance. -/
theorem test_decodeTableWord : decodeTableWord 32 0x4400A005 = some (.fbSetPixel 5 10 true false) ∧
    decodeTableWord 32 0x20000003 = some (.fbSetPage 3 (List.replicate 128 0)) ∧
    decodeTableWord 64 0x0000100858000000 = some (.fbBlit 0 0 8 1 true [0]) ∧
    decodeTableWord 32 0x50000000 = some (.fbBlit 0 0 0 0 false []) ∧
    decodeTableWord 32 0x70000000 = some (.fbSetBuffer (List.replicate 1024 0)) ∧
    decodeTableWord 32 0xB0000000 = none := by decide +kernel

/-- step runs the instruction put where it reads next. -/
theorem test_withFetchWord : leaves (step (State.reset.withFetchWord 32 0x4400A005))
    (fun t => decide (t.fb = [(133, 0x04)]) && decide (t.channel = [])) = true := by decide

/-! ## The assembler -/

/-- A byte list's text, in its braces. -/
def braced (items : String) : String := String.ofList ([openBrace] ++ items.toList ++ [closeBrace])

/-- R78's example, and L1.8, in text. -/
theorem test_assemble : (assembleText 8 "fb.setpix 5, 10, 1").map (·.flatMap encode) = some [0x4400A005] ∧
    (assembleText 8 ("fb.blit 0, 0, 7, 1, " ++ braced "0xFE")).map
      (·.flatMap encode) = some [0x50000000, 0x00001007, 0x000000FE] := by decide +kernel

/-- G1, R111's example, and R79's expansion of `fb.clear`: repetition in a byte list (log entry 15). -/
theorem test_assemble_repetition :
    assembleText 8 ("fb.setpage 3, " ++ braced "0xAA x 128") = some [.fbSetPage 3 (List.replicate 128 0xAA)] ∧
    assembleText 8 ("fb.setpage 0, " ++ braced "0x01, 0x00 x 127") =
      some [.fbSetPage 0 (0x01 :: List.replicate 127 0x00)] ∧
    assembleText 2 ("fb.setbuf " ++ braced "0 x cfg.PAGES*128") = assembleText 2 "fb.clear" ∧
    (assembleText 2 "fb.clear").isSome = true := by decide +kernel

/-- R79. -/
theorem test_assemble_pushall : assembleText 2 "tm.pushall" = some [.tmPush 0 0 128, .tmPush 1 0 128] := by decide +kernel

/-! ## The commands -/

/-- X1, X2. -/
theorem test_setpix : gives State.reset [0x4400A005] [(133, 0x04)] [0] 1 = true ∧
    gives (built 8 0 1) [0x4400A005] [(133, 0x20)] [0] 1 = true := by decide

/-- X3 writes 0; X8, X9, X10 are dropped; X12 is the last pixel. -/
theorem test_setpix_bounds :
    gives { State.reset with fb := [(133, 0x04)] } [0x4C00A005] [] [0] 1 = true ∧
    gives State.reset [0x44000080] [] [0] 1 = true ∧ gives State.reset [0x44040000] [] [0] 1 = true ∧
    gives State.reset [0x44FFFFFF] [] [0] 1 = true ∧ gives State.reset [0x4403F07F] [(1023, 0x80)] [0] 1 = true := by
  decide

/-- X5, X6, X7. -/
theorem test_getpix : gives { State.reset with fb := [(133, 0x04)] } [0x3000A005] [(133, 0x04)] [4] 1 = true ∧
    gives { built 8 0 1 with fb := [(133, 0x04)] } [0x3000A005] [(133, 0x04)] [0] 1 = true ∧
    gives { built 8 0 1 with fb := [(133, 0x04)] } [0x3000D005] [(133, 0x04)] [4] 1 = true := by decide

/-- X11: out of bounds, 0 whatever `inv` is. In bounds `inv` complements. -/
theorem test_getpix_inv : gives State.reset [0x38000080] [] [0] 1 = true ∧
    gives { State.reset with fb := [(133, 0x04)] } [0x3800A005] [(133, 0x04)] [0] 1 = true := by decide

/-- G1, G4. -/
theorem test_setpage :
    gives State.reset (0x20000003 :: List.replicate 32 0xAAAAAAAA) (cells 384 128 0xAA) [0] 33 = true ∧
    gives State.reset (0x20000008 :: List.replicate 32 0xFFFFFFFF) [] [0] 33 = true := by decide +kernel

/-- G6: the bytes of a word, least significant first. -/
theorem test_setpage_order :
    leaves (step (sends State.reset (0x20000000 :: rampWords))) (fun t => decide (t.fb.readBytes 0 128 = ramp)) = true := by
  decide +kernel

/-- G2, G3. -/
theorem test_getpage :
    gives { State.reset with fb := cells 384 128 0xAA } [0x10000003] (cells 384 128 0xAA)
      (0 :: List.replicate 32 0xAAAAAAAA) 1 = true ∧
    gives { State.reset with fb := cells 384 128 0xAA } [0x10000008] (cells 384 128 0xAA)
      (0 :: List.replicate 32 0) 1 = true := by decide +kernel

/-- B1. -/
theorem test_blit : gives { State.reset with fb := cells 0 8 0xFF } [0x50003000, 0x00002008, 0x00000180]
    ([(0, 0xEF)] ++ cells 1 6 0xE7 ++ [(7, 0xF7)]) [0] 3 = true := by decide +kernel

/-- B3 (no wrap), B5 (inverted), B8 (flipped), B7 (precondition), B10 (ILLEGAL first). -/
theorem test_blit_corners : gives State.reset [0x5000007C, 0x00001008, 0x000000FF] (cells 124 4 0x01) [0] 3 = true ∧
    gives State.reset [0x58000000, 0x00001008, 0x0000000F] (cells 0 4 0x01) [0] 3 = true ∧
    gives (built 8 0 1) [0x50000000, 0x00001008, 0x00000080] [(0, 0x80)] [0] 3 = true ∧
    gives State.reset [0x50000000, 0x0000200C, 0xFFFFFFFF] [] [1] 3 = true ∧
    gives State.reset [0x51000000, 0x00001007, 0xFFFFFFFF] [] [2] 3 = true := by decide +kernel

/-- K1, and a buffer with a byte in it. -/
theorem test_getbuf : gives (built 1 0 0) [0x60000000] [] (0 :: List.replicate 32 0) 1 = true ∧
    gives { built 1 0 0 with fb := [(5, 0x42)] } [0x60000000] [(5, 0x42)]
      (0 :: 0 :: 0x00004200 :: List.replicate 30 0) 1 = true := by decide +kernel

/-- K2. -/
theorem test_setbuf :
    leaves (step (sends { built 1 0 0 with fb := [(0, 0xFF)] } (0x70000000 :: rampWords)))
      (fun t => decide (t.fb.readBytes 0 128 = ramp) && decide (reply t = [0]) && decide (t.pc = 33)) = true := by
  decide +kernel

/-- T1, T7: the bytes, cut at column 127. -/
theorem test_push :
    hands { State.reset with fb := [(120, 1), (121, 2), (122, 3), (123, 4), (124, 5), (125, 6), (126, 7), (127, 8)] }
      0x80147800 .addressed (.writeRegion 0 120 [1, 2, 3, 4, 5, 6, 7, 8]) = true ∧
    hands { State.reset with fb := [(127, 0x42)] } 0x80FF7F00 .addressed (.writeRegion 0 127 [0x42]) = true := by decide

/-- T3, T4, T5: nothing is sent. -/
theorem test_push_nothing : gives State.reset [0x80800008] [] [0] 1 = true ∧
    gives State.reset [0x80018000] [] [0] 1 = true ∧ gives State.reset [0x80000500] [] [0] 1 = true := by decide

/-- T6: a serial instance whose backing fails. -/
theorem test_push_fails :
    hands { built 8 1 0 with fb := cells 272 8 0x11 } 0x80081002 .serial (.writeRegion 2 16 (List.replicate 8 0x11)) = true ∧
    (let t := (built 8 1 0).complete .serial (.writeRegion 2 16 [0x11]) .fail
     t.hist = [⟨.serial, .writeRegion 2 16 [0x11], .fail⟩] ∧ t.tmPhase = .idle ∧ reply t = [3]) := by decide +kernel

/-- T8, T10: the level goes to the backing; a failure is BUSFAIL. -/
theorem test_contrast : hands State.reset 0x9000007F .addressed (.setContrast 0x7F) = true ∧
    reply (State.reset.complete .addressed (.setContrast 255) .fail) = [3] := by decide

/-- T11. -/
theorem test_scroll : hands State.reset 0xA000002F .addressed (.scrollMode 0x2F) = true ∧
    reply (State.reset.complete .addressed (.scrollMode 0x2F) .ack) = [0] := by decide

/-- T12, G5, E2. -/
theorem test_illegal : gives State.reset [0x81000000] [] [2] 1 = true ∧
    gives State.reset (0x20000103 :: List.replicate 32 0xFFFFFFFF) [] [2] 33 = true ∧
    gives State.reset [0xB0000000] [] [2] 1 = true := by decide +kernel

/-! ## Bit functions: L2.1, and the small operations -/

theorem test_rotateByte : [0x00, 0xFF, 0x01, 0x80, 0x12, 0x0F, 0xB4, 0xA5, 0x03, 0x81, 0x5A].map rotateByte =
    [0x00, 0xFF, 0x80, 0x01, 0x48, 0xF0, 0x2D, 0xA5, 0xC0, 0x81, 0x5A] := by decide

theorem test_copyBit : copyBit 0x04 2 0x00 7 = 0x80 ∧ copyBit 0x00 0 0xFF 3 = 0xF7 ∧ copyBit 0x01 0 0x01 0 = 0x01 ∧
    copyBit 0xFF 7 0x00 0 = 0x01 ∧ copyBit 0x7F 7 0xFF 7 = 0x7F := by decide

theorem test_pixbit : (List.range 8).map (pixbit false) = [0, 1, 2, 3, 4, 5, 6, 7] ∧
    (List.range 8).map (pixbit true) = [7, 6, 5, 4, 3, 2, 1, 0] := by decide

/-- R40: MemRead and MemWrite end at the buffer's end. -/
theorem test_memory_range : (State.reset.memRead 1023 1).isSome = true ∧ State.reset.memRead 1023 2 = none ∧
    (State.reset.memWrite 1023 [1]).isSome = true ∧ State.reset.memWrite 1024 [1] = none := by decide

/-- R181: construction. -/
theorem test_construct :
    refuses (construct { width := 128, height := 60, transportKind := 0, flip := 0 }) .illegalConstruction = true ∧
    leaves (construct { width := 96, height := 2048, transportKind := 1, flip := 1 })
      (fun t => decide (t.cfg.pages = 256) && decide (t.cfg.width = 96) && t.cfg.flip &&
        decide (t.cfg.transportKind = .serial)) = true := by decide

/-- R168: another agent's word in the command. -/
theorem test_second_owner : faults (step { State.reset with channel := [⟨.other, 0x60000000⟩] }) .concurrentOwner = true ∧
    faults (step { State.reset with channel := [⟨.owner, 0x50000000⟩, ⟨.other, 8⟩] }) .concurrentOwner = true := by decide

/-- R60: one whole command is in step, the rest of one too, two commands or a part of one are not. -/
theorem test_inStep : State.reset.inStep [0x60000000] = true ∧ State.reset.inStep [] = true ∧
    (sends State.reset [0x50000000]).inStep [0x00001008, 0xFF] = true ∧
    State.reset.inStep [0x60000000, 0x60000000] = false ∧ State.reset.inStep [0x50000000] = false ∧
    State.reset.inStep [0x00000000] = true := by decide

/-- R190, I17: the snapshot of one page fits an instance of one page, and is out of step with one of two; the snapshot of two with one of one. -/
theorem test_snapshot_out_of_step : (built 1 0 0).inStep (encode (.fbSetBuffer ramp)) = true ∧
    (built 2 0 0).inStep (encode (.fbSetBuffer ramp)) = false ∧
    (built 1 0 0).inStep (encode (.fbSetBuffer (ramp ++ ramp))) = false := by decide +kernel

/-- R169: at its turn the owner has read every response, and no word has been consumed. -/
theorem test_owner_turn : ∃ t, step { State.reset with responses := [⟨.ok, false, []⟩] } = .next t ∧ t.received = 1 ∧
    t.pc = 0 ∧ t.responses = [⟨.ok, false, []⟩] := ⟨_, rfl, rfl, rfl, rfl⟩

/-! ## Witnesses: a concrete input for the hypotheses of each obligation -/

theorem reset_ready : State.reset.Ready := ⟨rfl, by decide, rfl⟩

theorem reset_inv : State.reset.Inv :=
  ⟨by decide, by decide, by decide, by simp [State.reset], by simp [State.reset], by decide, Nat.le_refl _⟩

/-- A state with a pending transaction, on a legal configuration. -/
def pendingState : State :=
  State.reset.setPhase (.pending .addressed (.writeRegion 7 120 [1, 2, 3, 4, 5, 6, 7, 8]))

theorem pendingState_inv : pendingState.Inv :=
  ⟨by decide, by decide, by decide, by simp [pendingState, State.reset],
    fun _ _ h => by cases h; exact ⟨rfl, by decide, by decide⟩, by decide, Nat.le_refl _⟩

theorem witness_DecodeOfEncodeIsTheCommand : (Instr.fbSetPage 0xFF ramp).wf 256 = true ∧
    (Instr.fbBlit 0xFFF 0xFFF 12 2 true [1, 2, 3, 4]).wf 1 = true ∧ (Instr.fbBlit 0 0 0 0xFFF false []).wf 1 = true ∧
    (Instr.fbSetBuffer ramp).wf 1 = true ∧ (Instr.tmPush 0xFF 0xFF 0xFF).wf 8 = true := by decide +kernel

theorem witness_DecodedWordsAreTheEncoding :
    decode 8 [0x58FFFFFF, 0x0000100C, 0xDEAD0201] = .command (.fbBlit 0xFFF 0xFFF 12 1 true [1, 2]) 3 ∧
    decode 1 (0x70000000 :: rampWords) = .command (.fbSetBuffer ramp) 33 ∧ ramp.length % 4 = 0 := by decide +kernel

theorem witness_OpcodeMapSelectsTheCommand : 32 ≤ rampWords.length ∧ 1 * 32 ≤ rampWords.length ∧
    ((((0x00003018 : Word).extractLsb' 0 12).toNat + 7) / 8 * ((0x00003018 : Word).extractLsb' 12 12).toNat + 3) / 4 ≤
      [(0 : Word), 0, 0].length := by decide

/-- Five bytes: the last word has one byte of the list and three that are ignored. -/
theorem witness_BytesArePackedLeastSignificantFirst :
    [(0x04030201 : Word), 0xFFFFFF05].length = ([1, 2, 3, 4, 5] : List Byte).length / 4 + 1 ∧
    (∀ k, ∀ h : k < ([1, 2, 3, 4, 5] : List Byte).length,
      ([(0x04030201 : Word), 0xFFFFFF05].getD (k / 4) 0).extractLsb' (8 * (k % 4)) 8 = ([1, 2, 3, 4, 5] : List Byte)[k]) ∧
    (5 ≤ 7 ∧ 7 < 4 * ((5 + 3) / 4)) := by decide

theorem witness_AssemblerExpandsAsWritten : (assembleLine 256 .pushall []).isSome = true ∧
    (assembleLine 8 .clrpix [.num 4095, .num 4095]).isSome = true ∧ (assembleLine 8 .pushpage [.num 255]).isSome = true ∧
    (assembleLine 8 .clrpage [.num 255]).isSome = true ∧ assembleLine 8 .clrpage [.num 256] = none := by decide +kernel

/-- For RotateByteReversesTheBits, CopyBitReplacesOneBit, InvertComplementsEveryByte and PixbitMirrorsTheBit. -/
theorem witness_bit_indices : (0 < 8 ∧ 7 < 8) ∧ (∀ i, i < 8 → (0x5A : Byte).getLsbD i = (0x5A : Byte).getLsbD (7 - i)) ∧ (rotateByte 0x12).getLsbD 6 = true ∧
    (copyBit 0x80 7 0x01 0).getLsbD 0 = true ∧ (copyBit 0x00 0 0xFF 7).getLsbD 7 = false ∧
    0 < ([0x5A] : List Byte).length := by decide

theorem witness_PixWriteChangesOneBit : Memory.wf [(1023, 0x7F)] ∧ 127 < 128 ∧
    (pixWrite false [(1023, 0x7F)] 127 63 true).read (63 / 8 * 128 + 127) = 0xFF ∧
    (pixWrite true [(1023, 0x7F)] 127 63 false).read (63 / 8 * 128 + 127) = 0x7E := by decide

/-- For GetPageAnswersTheRawPage: the last page, and the first page index that is none. -/
theorem witness_page_bounds : (7 : Byte).toNat < State.reset.cfg.pages.toNat ∧
    State.reset.cfg.pages.toNat ≤ (8 : Byte).toNat ∧ (255 : Byte).toNat < (built 256 0 0).cfg.pages.toNat := by decide

theorem witness_SetPageStoresTheRawPage : ramp.length = 128 ∧ State.reset.fb.wf ∧
    leaves (exec (.fbSetPage 7 ramp) State.reset) (fun t => decide (t.fb.read 1023 = 127)) = true ∧
    leaves (exec (.fbSetPage 8 ramp) State.reset) (fun t => decide (t.fb = [])) = true := by decide +kernel

/-- For GetPixelAnswersTheBit and SetPixelWritesOneBit: the last pixel, the first column and the first row that are none. -/
theorem witness_pixel_bounds : (127 : Coord).toNat < 128 ∧ (63 : Coord).toNat < 8 * State.reset.cfg.pages.toNat ∧
    128 ≤ (128 : Coord).toNat ∧ 8 * State.reset.cfg.pages.toNat ≤ (64 : Coord).toNat ∧ State.reset.fb.wf ∧
    (pixRead State.reset.cfg.flip State.reset.fb 127 63 = (true ^^ true)) := by decide

/-- A width of 7 and one of 8, the empty blits, and a state to run them in. -/
theorem witness_BlitReplacesTheRectangle : State.reset.fb.wf ∧
    ([0xFE] : List Byte).length = ((7 : Coord).toNat + 7) / 8 * (1 : Coord).toNat ∧ (7 : Coord).toNat % 8 ≠ 0 ∧
    ([0xFF, 0x81] : List Byte).length = ((8 : Coord).toNat + 7) / 8 * (2 : Coord).toNat ∧ (8 : Coord).toNat % 8 = 0 ∧
    ([] : List Byte).length = ((0 : Coord).toNat + 7) / 8 * (0xFFF : Coord).toNat ∧
    ([] : List Byte).length = ((16 : Coord).toNat + 7) / 8 * (0 : Coord).toNat := by decide

theorem witness_SetBufferStoresTheWholeBuffer : ramp.length = (built 1 0 0).cfg.pages.toNat * 128 ∧
    (List.replicate 128 (0xFF : Byte)).length = (built 1 0 1).cfg.pages.toNat * 128 ∧
    (built 1 0 0).fb.wf ∧ 127 < 128 ∧ 7 < 8 * (built 1 0 1).cfg.pages.toNat := by decide +kernel

/-- For the second part of SetBufferStoresTheWholeBuffer. -/
theorem witness_snapshot : Memory.wf [(0, 1), (1023, 0xFF)] ∧
    Memory.below [(0, 1), (1023, 0xFF)] State.reset.fbSize ∧ Memory.wf [(5, 2)] ∧
    Memory.below [(5, 2)] (built 8 1 1).fbSize ∧ (built 8 1 1).cfg.pages = State.reset.cfg.pages := by decide

/-- For PagePortAndPixelPortAgree and PageWriteIsSeenByThePixelPort. -/
theorem witness_port_relation : (7 : Byte).toNat < (built 8 0 1).cfg.pages.toNat ∧ 127 < 128 ∧ 7 < 8 ∧
    ramp.length = 128 ∧ (built 8 0 1).fb.wf := by decide +kernel

theorem witness_PixelRoundTripAtThePorts : State.reset.fb.wf ∧ (127 : Coord).toNat < 128 ∧
    (63 : Coord).toNat < 8 * State.reset.cfg.pages.toNat ∧ ((0 : Coord), (0 : Coord)) ≠ (127, 63) := by decide

theorem witness_ReadsHaveNoSideEffect : ∃ page, Instr.fbGetPage 8 = .fbGetPage page := ⟨8, rfl⟩

/-- Each way a push sends nothing, and the least and the widest push that sends. -/
theorem witness_PushSendsTheClampedRegion : State.reset.cfg.pages.toNat ≤ (8 : Byte).toNat ∧ 128 ≤ (128 : Byte).toNat ∧
    (0 : Byte).toNat = 0 ∧ (7 : Byte).toNat < State.reset.cfg.pages.toNat ∧ (127 : Byte).toNat < 128 ∧
    (1 : Byte).toNat ≠ 0 ∧ (255 : Byte).toNat ≠ 0 ∧ State.reset.resetRequest = none ∧ State.reset.cfg.legal = true := by
  decide

/-- For SetContrastForwardsTheLevel and SetScrollModeForwardsTheSelector. -/
theorem witness_transactions : State.reset.resetRequest = none ∧ State.reset.cfg.legal = true ∧
    (∃ t, exec (.tmSetContrast 0xFF) State.reset = .next t ∧ t.tmPhase = .pending .addressed (.setContrast 0xFF)) ∧
    (∃ t, exec (.tmSetScrollMode 0x2F) State.reset = .next t ∧ t.tmPhase = .pending .addressed (.scrollMode 0x2F)) :=
  ⟨rfl, by decide, ⟨_, rfl, rfl⟩, ⟨_, rfl, rfl⟩⟩

theorem witness_PendingTransactionCompletes : pendingState.resetRequest = none ∧ pendingState.cfg.legal = true ∧
    pendingState.tmPhase = .pending .addressed (.writeRegion 7 120 [1, 2, 3, 4, 5, 6, 7, 8]) ∧
    ((7 : Byte).toNat * 128 + (120 : Byte).toNat ≤ 1023 ∧ 1023 < (7 : Byte).toNat * 128 + (120 : Byte).toNat + 8) := by decide

/-- A step of a pending backing: for TransactionsGoToTheSelectedBacking, TransactionsCompleteInOrder,
StreamPositionOnlyAdvances and LifetimeOfConfigAndStorage. -/
theorem witness_pending_step : pendingState.resetRequest = none ∧ (∃ t, step pendingState = .next t) ∧
    (∀ e ∈ pendingState.hist, e.backing = pendingState.cfg.transportKind) ∧
    (∀ bk txn, pendingState.tmPhase = .pending bk txn → bk = pendingState.cfg.transportKind) :=
  ⟨rfl, ⟨_, rfl⟩, by simp [pendingState, State.reset, State.constructed], fun _ _ h => by cases h; rfl⟩

theorem witness_BackingIsInvisibleToTheOwner :
    (∃ t, exec (.tmPush 7 127 255) State.reset = .next t) ∧ pendingState.resetRequest = none ∧
    pendingState.cfg.legal = true ∧ (∃ bk txn, pendingState.tmPhase = .pending bk txn) :=
  ⟨⟨_, rfl⟩, rfl, by decide, ⟨_, _, rfl⟩⟩

/-- For OnlyTransportCommandsEmit, FrameOfEveryCommand, CommandsStopOnlyWhenIllFormed and StatusIsNotSticky, whose
hypothesis is that a command answers a next state: one that answers, one that stores, one that hands over, one that
stops; and for ConstructionMeetsTheInvariant. -/
theorem witness_exec_answers : (∃ t, exec (.fbGetPage 8) State.reset = .next t) ∧
    (∃ t, exec (.fbSetPixel 127 63 true false) State.reset = .next t) ∧ (Instr.fbGetPage 8).writesFb = false ∧
    (∃ t, exec (.tmSetContrast 0) State.reset = .next t) ∧
    (∃ t, construct Config.constructionArgs = .next t) ∧
    (Instr.fbSetPage 0 []).wf State.reset.pageCount = false ∧ (Instr.fbGetPage 8).wf State.reset.pageCount = true :=
  ⟨⟨_, rfl⟩, ⟨_, rfl⟩, rfl, ⟨_, rfl⟩, ⟨_, rfl⟩, by decide, by decide⟩

theorem witness_StepRunsTheDecodedCommand : (sends State.reset [0x4400A005, 0x60000000]).Ready ∧
    decode (sends State.reset [0x4400A005, 0x60000000]).pageCount
      (channelWords (sends State.reset [0x4400A005, 0x60000000]).channel) = .command (.fbSetPixel 5 10 true false) 1 ∧
    sentByOwner ((sends State.reset [0x4400A005, 0x60000000]).channel.take 1) = true ∧
    (Instr.fbSetPixel 5 10 true false).wf State.reset.pageCount = true ∧
    (sends State.reset [0x4400A005, 0x60000000]).channel =
      ownerWords (encode (.fbSetPixel 5 10 true false)) ++ ownerWords [0x60000000] :=
  ⟨⟨rfl, by decide, rfl⟩, by decide, by decide, by decide, by decide⟩

/-- The lengths of R61: a blit of width 7 with its payload, a page, a reserved opcode. -/
theorem witness_CommandIsConsumedAtItsLength : (sends State.reset [0x50000000, 0x00001007, 0xFE]).Ready ∧
    (sends State.reset [0x50000000, 0x00001007, 0xFE]).SingleOwner ∧
    channelWords (sends State.reset [0x50000000, 0x00001007, 0xFE]).channel = [0x50000000, 0x00001007, 0xFE] ∧
    2 + (((0x00001007 : Word).extractLsb' 0 12).toNat + 7) / 8 * ((0x00001007 : Word).extractLsb' 12 12).toNat = 3 ∧
    33 ≤ (sends State.reset (0x20000000 :: rampWords)).channel.length ∧
    1 + (built 1 0 0).cfg.pages.toNat * 32 ≤ (sends (built 1 0 0) (0x70000000 :: rampWords)).channel.length ∧
    1 ≤ (sends State.reset [0]).channel.length :=
  ⟨⟨rfl, by decide, rfl⟩, by decide, by decide, by decide, by decide, by decide, by decide⟩

theorem witness_BlockWaitsForACompleteCommand : (sends State.reset [0x20000000]).Ready ∧
    (sends State.reset [0x20000000]).SingleOwner ∧
    decode (sends State.reset [0x20000000]).pageCount (channelWords (sends State.reset [0x20000000]).channel) =
      .incomplete ∧ State.reset.Ready ∧ State.reset.SingleOwner ∧
    decode State.reset.pageCount (channelWords State.reset.channel) = .incomplete :=
  ⟨⟨rfl, by decide, rfl⟩, by decide, by decide, reset_ready, by decide, by decide⟩

/-- A turn of the owner, from reset and after a command (for the other two agents witness_block_step and
witness_pending_step). -/
theorem witness_AgentsStepWhenTheyFire : State.reset.resetRequest = none ∧ (∃ t, step State.reset = .next t) ∧
    State.reset.fetch = .awaiting ∧ (sends State.reset [0x4400A005]).fetch = .command (.fbSetPixel 5 10 true false) 1 ∧
    (∃ t u, step (sends State.reset [0x4400A005]) = .next t ∧ t.fetch = .awaiting ∧ step t = .next u ∧
      u.received = 1) :=
  ⟨rfl, ⟨_, rfl⟩, by decide, by decide, ⟨_, _, rfl, by decide, rfl, rfl⟩⟩

/-- A longer and a shorter snapshot than the instance's, the first with a word behind it, and one that fits. -/
theorem witness_SnapshotOfAnotherSizeIsOutOfStep : (built 1 0 0).Ready ∧ (built 2 0 0).Ready ∧
    (sends (built 1 0 0) (encode (.fbSetBuffer (ramp ++ ramp)) ++ [0x60000000])).Ready ∧
    (ramp ++ ramp).length = 2 * 128 ∧ ramp.length = 1 * 128 ∧ (built 1 0 0).channel = [] ∧
    (sends (built 1 0 0) (encode (.fbSetBuffer (ramp ++ ramp)) ++ [0x60000000])).channel =
      ownerWords (encode (.fbSetBuffer (ramp ++ ramp)) ++ [0x60000000]) ∧
    1 * 32 + 0 < (built 2 0 0).cfg.pages.toNat * 32 ∧ (built 1 0 0).cfg.pages.toNat * 32 ≤ 2 * 32 + 1 ∧
    (built 1 0 0).cfg.pages.toNat * 32 ≤ 1 * 32 + 0 :=
  ⟨⟨rfl, by decide, rfl⟩, ⟨rfl, by decide, rfl⟩, ⟨rfl, by decide, rfl⟩, by decide +kernel, by decide +kernel, rfl,
    rfl, by decide, by decide, by decide⟩

theorem witness_ReservedOpcodeIsIllegal : (sends State.reset [0xB0000000]).Ready ∧
    (sends State.reset [0xB0000000]).channel = ⟨.owner, 0xB0000000⟩ :: [] ∧
    0xB ≤ ((0xB0000000 : Word).extractLsb' 28 4).toNat ∧ ((0x0FFFFFFF : Word).extractLsb' 28 4).toNat = 0 ∧
    0xB ≤ ((0xFFFFFFFF : Word).extractLsb' 28 4).toNat :=
  ⟨⟨rfl, by decide, rfl⟩, rfl, by decide, by decide, by decide⟩

/-- B10, B11: a reserved bit of each header word. -/
theorem witness_ReservedBitIsIllegal : (sends State.reset [0x51000000, 0x00001007, 0]).Ready ∧
    (sends State.reset [0x51000000, 0x00001007, 0]).SingleOwner ∧
    opcodeOf 0x51000000 = some .fbBlit ∧ secondHeader .fbBlit [0x00001007, 0] = some 0x00001007 ∧
    Opcode.fbBlit.commandLength State.reset.pageCount 0x00001007 ≤ 3 ∧
    ((0x51000000 : Word) &&& Opcode.fbBlit.reservedMask ≠ 0) ∧
    ((0x01001008 : Word) &&& Opcode.fbBlit.secondReservedMask ≠ 0) :=
  ⟨⟨rfl, by decide, rfl⟩, by decide, by decide, by decide, by decide, by decide, by decide⟩

theorem witness_SecondOwnerIsAFault :
    ({ State.reset with channel := [⟨.other, 0x60000000⟩] } : State).Ready ∧
    decode 8 (channelWords [⟨.other, 0x60000000⟩]) = .command .fbGetBuffer 1 ∧
    sentByOwner [⟨.other, 0x60000000⟩] = false ∧
    decode 8 (channelWords [⟨.other, 0xB0000000⟩]) = .illegal .reservedOpcode 1 ∧
    decode 8 (channelWords [⟨.owner, 0x50000000⟩, ⟨.other, 8⟩]) = .command (.fbBlit 0 0 8 0 false []) 2 ∧
    decode 8 (channelWords [⟨.other, 0x50000000⟩]) = .incomplete :=
  ⟨⟨rfl, by decide, rfl⟩, by decide, by decide, by decide, by decide, by decide⟩

/-- A step of the block: for TransactionsCompleteInOrder, StreamPositionOnlyAdvances and LifetimeOfConfigAndStorage. -/
theorem witness_block_step : (sends State.reset [0x4400A005]).resetRequest = none ∧
    (∃ t, step (sends State.reset [0x4400A005]) = .next t ∧ t.fb ≠ State.reset.fb ∧
      t.responses = State.reset.responses ++ [⟨.ok, false, []⟩]) := ⟨rfl, _, rfl, by decide, rfl⟩

/-- For ErrorsArePrecise and StatusesHaveTheirCauses: ILLEGAL, EPRECOND and a backing's reply. -/
theorem witness_errors :
    (∃ t, step (sends State.reset [0]) = .next t ∧ t.responses = State.reset.responses ++ [⟨.illegal, false, []⟩]) ∧
    (∃ t, step (sends State.reset [0x50000000, 0x00001007, 0]) = .next t ∧
      t.responses = State.reset.responses ++ [⟨.eprecond, false, []⟩]) ∧
    (∃ t r, step pendingState = .next t ∧ t.responses = pendingState.responses ++ [r]) :=
  ⟨⟨_, rfl, rfl⟩, ⟨_, rfl, rfl⟩, ⟨_, _, rfl, rfl⟩⟩

/-- The ends of R181's ranges. -/
theorem witness_ConstructionGivesTheResetState : (8 % 8 = 0 ∧ 8 ≤ 8 ∧ 8 ≤ 2048) ∧ (2048 % 8 = 0 ∧ 2048 ≤ 2048) ∧
    ({ width := 1, height := 8, transportKind := 0, flip := 0 } : ConstructionArgs).legal = true ∧
    ({ width := 128, height := 2048, transportKind := 1, flip := 1 } : ConstructionArgs).legal = true := by decide

theorem witness_IllegalConstructionIsRefused :
    ({ width := 0, height := 8, transportKind := 0, flip := 0 } : ConstructionArgs).legal = false ∧
    ({ width := 129, height := 8, transportKind := 0, flip := 0 } : ConstructionArgs).legal = false ∧
    ({ width := 1, height := 2056, transportKind := 0, flip := 0 } : ConstructionArgs).legal = false ∧
    ({ width := 1, height := 0, transportKind := 0, flip := 0 } : ConstructionArgs).legal = false ∧
    ({ width := 1, height := 12, transportKind := 0, flip := 0 } : ConstructionArgs).legal = false ∧
    ({ width := 1, height := 8, transportKind := 2, flip := 0 } : ConstructionArgs).legal = false ∧
    ({ width := 1, height := 8, transportKind := 0, flip := 2 } : ConstructionArgs).legal = false := by decide

/-- A configuration no construction gives: pages that are not height div 8. -/
def illegalState : State := { State.reset with cfg := { State.reset.cfg with pages := 9 } }

/-- For the second part of IllegalConstructionIsRefused. -/
theorem witness_illegal_state : illegalState.resetRequest = none ∧
    (∀ a t, construct a = .next t → t.cfg ≠ illegalState.cfg) ∧
    refuses (step illegalState) .illegalConstruction = true := by
  refine ⟨rfl, fun a t h hc => ?_, by decide⟩
  cases ha : a.legal
  · rw [construct_of_illegal ha] at h; cases h
  · rw [construct_of_legal ha] at h
    cases h
    have hl := ConfigRegs.legal_sampled ha
    rw [State.constructed_cfg] at hc
    rw [hc] at hl
    exact absurd hl (by decide)

theorem witness_RepeatedResetDropsThePendingTransaction :
    (∃ c, construct { width := 96, height := 16, transportKind := 1, flip := 1 } = .next c) ∧
    leaves (step { pendingState with
        resetRequest := some { width := 96, height := 16, transportKind := 1, flip := 1 } })
      (fun t => decide (t.tmPhase = .idle) && decide (t.hist = []) && decide (t.cfg.pages = 2)) = true :=
  ⟨⟨_, rfl⟩, by decide⟩

theorem witness_StepKeepsTheInvariant : pendingState.Inv ∧ (∃ t, step pendingState = .next t) ∧
    State.reset.Inv ∧ (∃ t, step State.reset = .next t) := ⟨pendingState_inv, ⟨_, rfl⟩, reset_inv, ⟨_, rfl⟩⟩

theorem witness_NothingIsFatal : pendingState.cfg.legal = true ∧ pendingState.SingleOwner ∧ pendingState.LegalRequest :=
  ⟨by decide, by decide, fun _ h => by cases h⟩

theorem witness_EveryCommandIsAnswered : (sends State.reset (encode (.tmPush 7 127 255))).Ready ∧
    (Instr.tmPush 7 127 255).wf State.reset.pageCount = true ∧
    (sends State.reset (encode (.tmPush 7 127 255))).channel = ownerWords (encode (.tmPush 7 127 255)) ++ [] :=
  ⟨⟨rfl, by decide, rfl⟩, by decide, by decide⟩

/-- For AcknowledgedPushMakesThePanelKnown, with reset_ready and witness_PushSendsTheClampedRegion: nothing is taken to
scroll at reset, the byte before the region and the byte after it. -/
theorem witness_AcknowledgedPushMakesThePanelKnown : State.reset.panelByte 1023 ≠ .scrolling ∧
    0 < min (255 : Byte).toNat (128 - (127 : Byte).toNat) ∧
    leaves (exec (.tmPush 7 127 255) { State.reset with fb := [(1023, 0x7F)] }) (fun t =>
      decide (t.panelByte 1023 = .unknown) && decide (t.panelByte 1022 = .unknown) &&
      decide ((t.complete .addressed (.writeRegion 7 127 [0x7F]) .ack).panelByte 1023 = .known 0x7F)) = true := by decide

/-- A state after one acknowledged push of two bytes. -/
def pushedState : State :=
  { State.reset with hist := [⟨.addressed, .writeRegion 7 120 [1, 2], .ack⟩] }

/-- For FailureAndScrollMakeThePanelUnknown: a byte known, the byte beside it; the region again while it is pending
(log entry 22), after a failure and after a later Ack. -/
theorem witness_FailureMakesThePanelUnknown :
    pushedState.panelByte 1017 = .known 2 ∧ pushedState.panelByte 1018 = .unknown ∧
    (pushedState.emit (.writeRegion 7 121 [3])).panelByte 1017 = .unknown ∧
    (pushedState.emit (.writeRegion 7 121 [3])).panelByte 1016 = .known 1 ∧
    (pushedState.complete .addressed (.writeRegion 7 121 [3]) .fail).panelByte 1017 = .unknown ∧
    ((pushedState.complete .addressed (.writeRegion 7 121 [3]) .fail).complete .addressed (.writeRegion 7 121 [3])
      .ack).panelByte 1017 = .known 3 := by decide

/-- For FailureAndScrollMakeThePanelUnknown: a scroll command pending, completed, and dropped by a construction (log
entry 21), after which an acknowledged push tells nothing; with no scroll command a construction leaves the panel
unknown only. -/
theorem witness_ScrollMakesThePanelUnknown :
    (pushedState.emit (.scrollMode 0)).tmPhase = .pending .addressed (.scrollMode 0) ∧
    (pushedState.emit (.scrollMode 0)).panelByte 1017 = .scrolling ∧
    (pushedState.complete .addressed (.scrollMode 0) .fail).panelByte 1017 = .scrolling ∧
    leaves (step { pushedState.emit (.scrollMode 0) with resetRequest := some Config.constructionArgs }) (fun t =>
      decide (t.hist = []) && decide (t.tmPhase = .idle) &&
      decide ((t.complete .addressed (.writeRegion 7 121 [3]) .ack).panelByte 1017 = .scrolling)) = true ∧
    leaves (step { pushedState with resetRequest := some Config.constructionArgs }) (fun t =>
      decide (t.panelByte 1017 = .unknown) &&
      decide ((t.complete .addressed (.writeRegion 7 121 [3]) .ack).panelByte 1017 = .known 3)) = true ∧
    (∀ e ∈ pushedState.hist, ∀ selector, e.txn ≠ .scrollMode selector) ∧
    (∀ e ∈ pushedState.earlier, ∀ selector, e.txn ≠ .scrollMode selector) ∧
    (∀ bk selector, pushedState.tmPhase ≠ .pending bk (.scrollMode selector)) :=
  ⟨rfl, by decide, by decide, by decide, by decide, by simp [pushedState], by simp [pushedState, State.reset],
    fun _ _ h => by cases h⟩

end Sys2Proof.Tests
end

section
/-! PROOFS. The statements about the architectural state (spec/10_state.md): what construction leaves. -/

namespace Sys2Proof

theorem ConstructionArgs.legal_iff {a : ConstructionArgs} :
    a.legal = true ↔ (a.height % 8 = 0 ∧ 8 ≤ a.height ∧ a.height ≤ 2048) ∧ (1 ≤ a.width ∧ a.width ≤ 128) ∧
      a.transportKind ≤ 1 ∧ a.flip ≤ 1 := by
  simp only [legal, Bool.and_eq_true, decide_eq_true_eq, and_assoc]

end Sys2Proof

namespace Sys2Proof.Machine

/-! ## The registers that construction samples

The registers are wide enough for every legal argument (spec/10_state.md R20), so sampling loses nothing. -/

section Sampled

variable {a : ConstructionArgs}

theorem ConfigRegs.toNat_width_sampled (h : a.width ≤ 128) : (sampled a).width.toNat = a.width :=
  (BitVec.toNat_ofNat _ _).trans (Nat.mod_eq_of_lt (by omega))

theorem ConfigRegs.toNat_height_sampled (h : a.height ≤ 2048) : (sampled a).height.toNat = a.height :=
  (BitVec.toNat_ofNat _ _).trans (Nat.mod_eq_of_lt (by omega))

theorem ConfigRegs.toNat_pages_sampled (h : a.height ≤ 2048) : (sampled a).pages.toNat = a.height / 8 :=
  (BitVec.toNat_ofNat _ _).trans (Nat.mod_eq_of_lt (by omega))

theorem ConfigRegs.transportKind_sampled_eq_addressed_iff :
    (sampled a).transportKind = .addressed ↔ a.transportKind = 0 := by
  by_cases h : a.transportKind = 0 <;> simp [sampled, h]

/-- `transport_kind` has no legal value beside 0 and 1. -/
theorem ConfigRegs.transportKind_sampled_eq_serial_iff (hk : a.transportKind ≤ 1) :
    (sampled a).transportKind = .serial ↔ a.transportKind = 1 := by
  obtain h | h := Nat.le_one_iff_eq_zero_or_eq_one.mp hk <;> simp [sampled, h]

theorem ConfigRegs.flip_sampled_iff : (sampled a).flip = true ↔ a.flip = 1 := beq_iff_eq

end Sampled

/-- Settles O45: legal arguments construct `State.constructed`, whose registers hold them (spec/10_state.md R31). -/
theorem constructionGivesTheResetState : Obligations.ConstructionGivesTheResetState := by
  intro a hmod hmin hmax hwmin hwmax hkind hflip
  have hlegal : a.legal = true :=
    ConstructionArgs.legal_iff.mpr ⟨⟨hmod, hmin, hmax⟩, ⟨hwmin, hwmax⟩, hkind, hflip⟩
  exact ⟨State.constructed a, construct_of_legal hlegal,
    ConfigRegs.toNat_width_sampled hwmax,
    ConfigRegs.toNat_height_sampled hmax,
    ConfigRegs.toNat_pages_sampled hmax,
    ConfigRegs.transportKind_sampled_eq_addressed_iff,
    ConfigRegs.transportKind_sampled_eq_serial_iff hkind,
    ConfigRegs.flip_sampled_iff,
    Memory.read_nil, State.constructed_tmPhase a, State.constructed_pc a, State.constructed_hist a⟩

end Sys2Proof.Machine
end

section
/-! PROOFS. The statements about the memory and the history (spec/20_memory.md): when a transaction is recorded. -/

namespace Sys2Proof.Machine

/-! ## The history under one step -/

/-- None of a command's three effects is a record in the history (log entry 16). -/
theorem Effect.hist_eq {i : Instr} {s t : State} (h : Effect i s t) : t.hist = s.hist := by
  cases h with
  | answered r => exact State.answer_hist s r
  | stored fb => rw [State.answer_hist, State.setFb_hist]
  | emitted txn => exact State.setPhase_hist s _

theorem exec_hist {i : Instr} {s t : State} (h : exec i s = .next t) : t.hist = s.hist :=
  (effect_of_exec h).2.hist_eq

theorem step_hist_of_idle {s t : State} (hr : s.resetRequest = none) (hi : s.tmPhase = .idle)
    (h : step s = .next t) : t.hist = s.hist := by
  obtain ⟨-, ⟨bk, txn, hp, -⟩ | ⟨-, ⟨i, n, -, hx⟩ | ⟨n, -, rfl⟩ | ⟨-, rfl⟩⟩⟩ := step_cases hr h
  · rw [hi] at hp; cases hp
  · rw [exec_hist hx, State.consume_hist]
  · rw [State.raise_eq_answer, State.answer_hist, State.consume_hist]
  · exact State.ownerTurn_hist s

/-- While a transaction is pending only the backing steps. -/
theorem step_eq_backingReturns {s t : State} {bk : Backing} {txn : Transaction} (hr : s.resetRequest = none)
    (hp : s.tmPhase = .pending bk txn) (h : step s = .next t) : t = s.backingReturns bk txn := by
  obtain ⟨hlegal, -⟩ := step_cases hr h
  rw [step_of_pending hr hlegal hp] at h
  exact (Host.Outcome.next.inj h).symm

/-- Settles O31: from Idle no branch of the step records anything; from pending the step is the backing's, which records
that transaction alone, at the end of the history, and leaves the phase Idle. -/
theorem transactionsCompleteInOrder : Obligations.TransactionsCompleteInOrder := by
  intro s t hr h
  refine ⟨fun hi => step_hist_of_idle hr hi h, fun bk txn hp => ?_⟩
  obtain ⟨o, ho⟩ := s.backingReturns_cases bk txn
  rw [step_eq_backingReturns hr hp h, ho]
  exact ⟨o, by simp⟩

end Sys2Proof.Machine
end

section
/-! PROOFS. The statements about the encoding (spec/30_encoding.md): which words are which command, how many words a
command takes, what a reserved encoding does, and what the assembler's pseudo-instructions stand for. -/

namespace Sys2Proof

/-! ## Match and mask (R71) -/

/-- The operation of a command. -/
def Instr.opcode : Instr → Opcode
  | .fbGetPage _ => .fbGetPage
  | .fbSetPage _ _ => .fbSetPage
  | .fbGetPixel _ _ _ => .fbGetPixel
  | .fbSetPixel _ _ _ _ => .fbSetPixel
  | .fbBlit _ _ _ _ _ _ => .fbBlit
  | .fbGetBuffer => .fbGetBuffer
  | .fbSetBuffer _ => .fbSetBuffer
  | .tmPush _ _ _ => .tmPush
  | .tmSetContrast _ => .tmSetContrast
  | .tmSetScrollMode _ => .tmSetScrollMode

@[simp] theorem Instr.opcode_assemble (op : Opcode) (w0 w1 : Word) (d : List Byte) :
    (assemble op w0 w1 d).opcode = op := by
  cases op <;> rfl

/-- The `match` of an operation's row in R71: its number in the opcode field, zero below. -/
def Opcode.matchWord (op : Opcode) : Word := op.number ++ (0 : BitVec 28)

/-- The `mask` of an operation's row in R71: the opcode field and the reserved bits. -/
def Opcode.mask (op : Opcode) : Word := 0xF0000000 ||| op.reservedMask

theorem opcodeOf_eq_some_iff {w : Word} {op : Opcode} : opcodeOf w = some op ↔ w.extractLsb' 28 4 = op.number :=
  ⟨number_of_opcodeOf, opcodeOf_of_number⟩

theorem bitVec_append_eq_append_iff {m n : Nat} {a c : BitVec m} {b d : BitVec n} :
    a ++ b = c ++ d ↔ a = c ∧ b = d := by
  refine ⟨fun h => ?_, fun ⟨ha, hb⟩ => by rw [ha, hb]⟩
  obtain rfl : a = c := by
    simpa only [BitVec.extractLsb'_append_eq_left] using congrArg (BitVec.extractLsb' n m) h
  exact ⟨rfl, (BitVec.append_right_inj a).mp h⟩

/-- R71's rule for the first header word: its mask is the opcode field and, below it, the reserved bits. -/
theorem and_mask_eq_matchWord_iff {w : Word} {op : Opcode} :
    w &&& op.mask = op.matchWord ↔ opcodeOf w = some op ∧ w &&& op.reservedMask = 0 := by
  have hmask : op.mask = BitVec.allOnes 4 ++ op.reservedMask.extractLsb' 0 28 := by cases op <;> rfl
  have hres : op.reservedMask = 0#4 ++ op.reservedMask.extractLsb' 0 28 := by cases op <;> rfl
  have hw : w = w.extractLsb' 28 4 ++ w.extractLsb' 0 28 :=
    (BitVec.extractLsb'_append_extractLsb' (w := 4) (len := 28)).symm
  generalize op.reservedMask.extractLsb' 0 28 = lowMask at hmask hres
  rw [opcodeOf_eq_some_iff, hmask, hres, Opcode.matchWord]
  generalize w.extractLsb' 28 4 = number, w.extractLsb' 0 28 = fields at hw
  rw [hw, BitVec.and_append, BitVec.and_append, BitVec.and_allOnes, BitVec.and_zero, bitVec_append_eq_append_iff,
    show (0 : Word) = 0#4 ++ 0#28 from rfl, BitVec.append_right_inj]
  rfl

theorem hasReservedBit_eq_false_iff {op : Opcode} {w0 w1 : Word} :
    hasReservedBit op w0 w1 = false ↔ w0 &&& op.reservedMask = 0 ∧ w1 &&& op.secondReservedMask = 0 := by
  simp [hasReservedBit]

theorem hasReservedBit_eq_true_iff {op : Opcode} {w0 w1 : Word} :
    hasReservedBit op w0 w1 = true ↔ w0 &&& op.reservedMask ≠ 0 ∨ w1 &&& op.secondReservedMask ≠ 0 := by
  simp [hasReservedBit]

/-- The header words of a decoded command meet the match and the masks of its operation's row. -/
theorem match_of_decode {pages : Nat} {w w1 : Word} {tail : List Word} {i : Instr} {op : Opcode} {n : Nat}
    (h : decode pages (w :: tail) = .command i n) (hi : i.opcode = op) (h1 : secondHeader op tail = some w1) :
    w &&& op.mask = op.matchWord ∧ w1 &&& op.secondReservedMask = 0 := by
  obtain ⟨w0, tail', op', w1', hws, hop, hw1, -, -, hres, rfl⟩ := decode_command_inv h
  obtain ⟨rfl, rfl⟩ := List.cons.inj hws
  obtain rfl : op' = op := (Instr.opcode_assemble op' w w1' _).symm.trans hi
  obtain rfl : w1' = w1 := Option.some.inj (hw1.symm.trans h1)
  obtain ⟨hw, hw1⟩ := hasReservedBit_eq_false_iff.mp hres
  exact ⟨and_mask_eq_matchWord_iff.mpr ⟨hop, hw⟩, hw1⟩

/-- Header words that meet an operation's row are decoded to its command, once its payload has come. -/
theorem decode_of_match {pages : Nat} {w w1 : Word} {tail : List Word} {op : Opcode}
    (h : w &&& op.mask = op.matchWord) (h1 : secondHeader op tail = some w1) (hw1 : w1 &&& op.secondReservedMask = 0)
    (hlen : op.commandLength pages w1 ≤ tail.length + 1) :
    decode pages (w :: tail) = .command
      (assemble op w w1 (unpackBytes (op.payloadBytes pages w1) (tail.drop (op.headerWords - 1))))
      (op.commandLength pages w1) := by
  obtain ⟨hop, hres⟩ := and_mask_eq_matchWord_iff.mp h
  exact decode_of_complete hop h1 hlen (hasReservedBit_eq_false_iff.mpr ⟨hres, hw1⟩)

/-- Settles O4: row by row, `match_of_decode` and `decode_of_match`; the commands of one word have come with it. -/
theorem opcodeMapSelectsTheCommand : Obligations.OpcodeMapSelectsTheCommand := by
  intro pages w tail
  refine ⟨?getPage, ?setPage, ?getPixel, ?setPixel, ?blit, ?getBuffer, ?setBuffer, ?push, ?contrast, ?scroll⟩
  case getPage =>
    exact ⟨fun h => ⟨_, _, decode_of_match (op := .fbGetPage) h rfl rfl (by simp)⟩,
      fun ⟨_, _, h⟩ => (match_of_decode (op := .fbGetPage) h rfl rfl).1⟩
  case setPage =>
    intro hlen
    exact ⟨fun h => ⟨_, _, _, decode_of_match (op := .fbSetPage) h rfl rfl (by simpa using hlen)⟩,
      fun ⟨_, _, _, h⟩ => (match_of_decode (op := .fbSetPage) h rfl rfl).1⟩
  case getPixel =>
    exact ⟨fun h => ⟨_, _, _, _, decode_of_match (op := .fbGetPixel) h rfl rfl (by simp)⟩,
      fun ⟨_, _, _, _, h⟩ => (match_of_decode (op := .fbGetPixel) h rfl rfl).1⟩
  case setPixel =>
    exact ⟨fun h => ⟨_, _, _, _, _, decode_of_match (op := .fbSetPixel) h rfl rfl (by simp)⟩,
      fun ⟨_, _, _, _, _, h⟩ => (match_of_decode (op := .fbSetPixel) h rfl rfl).1⟩
  case blit =>
    rintro w1 rest rfl hlen
    have hlen' : Opcode.fbBlit.commandLength pages w1 ≤ (w1 :: rest).length + 1 := by
      rw [commandLength_fbBlit, List.length_cons, Nat.add_comm 2]
      exact Nat.add_le_add_right hlen 2
    exact ⟨fun ⟨h, h1⟩ => ⟨_, _, _, _, _, _, _, decode_of_match (op := .fbBlit) h rfl h1 hlen'⟩,
      fun ⟨_, _, _, _, _, _, _, h⟩ => match_of_decode (op := .fbBlit) h rfl rfl⟩
  case getBuffer =>
    exact ⟨fun h => ⟨_, decode_of_match (op := .fbGetBuffer) h rfl rfl (by simp)⟩,
      fun ⟨_, h⟩ => (match_of_decode (op := .fbGetBuffer) h rfl rfl).1⟩
  case setBuffer =>
    intro hlen
    exact ⟨fun h => ⟨_, _, decode_of_match (op := .fbSetBuffer) h rfl rfl
        (by rw [commandLength_fbSetBuffer]; omega)⟩,
      fun ⟨_, _, h⟩ => (match_of_decode (op := .fbSetBuffer) h rfl rfl).1⟩
  case push =>
    exact ⟨fun h => ⟨_, _, _, _, decode_of_match (op := .tmPush) h rfl rfl (by simp)⟩,
      fun ⟨_, _, _, _, h⟩ => (match_of_decode (op := .tmPush) h rfl rfl).1⟩
  case contrast =>
    exact ⟨fun h => ⟨_, _, decode_of_match (op := .tmSetContrast) h rfl rfl (by simp)⟩,
      fun ⟨_, _, h⟩ => (match_of_decode (op := .tmSetContrast) h rfl rfl).1⟩
  case scroll =>
    exact ⟨fun h => ⟨_, _, decode_of_match (op := .tmSetScrollMode) h rfl rfl (by simp)⟩,
      fun ⟨_, _, h⟩ => (match_of_decode (op := .tmSetScrollMode) h rfl rfl).1⟩

/-! ## Lengths and reserved encodings (R61, R73, R74) -/

/-- A reserved opcode is one word, whatever follows it. -/
theorem decode_of_reservedOpcode {pages : Nat} {w : Word} {tail : List Word} (h : opcodeOf w = none) :
    decode pages (w :: tail) = .illegal .reservedOpcode 1 := by
  simp only [decode, h]

theorem decode_of_reservedBit {pages : Nat} {w0 w1 : Word} {tail : List Word} {op : Opcode}
    (hop : opcodeOf w0 = some op) (h1 : secondHeader op tail = some w1)
    (hlen : op.commandLength pages w1 ≤ tail.length + 1) (hres : hasReservedBit op w0 w1 = true) :
    decode pages (w0 :: tail) = .illegal .reservedBit (op.commandLength pages w1) := by
  rw [decode_known hop h1, decodeWith, if_neg (by omega), if_pos hres]

theorem Opcode.headerWords_le_commandLength (op : Opcode) (pages : Nat) (w1 : Word) :
    op.headerWords ≤ op.commandLength pages w1 := Nat.le_add_right _ _

/-- With its header words come, a command's length can be read: only a blit's depends on the second one. -/
theorem secondHeader_of_headerWords_le {op : Opcode} {tail : List Word} (h : op.headerWords ≤ tail.length + 1) :
    ∃ w1, secondHeader op tail = some w1 ∧
      ∀ pages, op.commandLength pages w1 = op.commandLength pages (tail.headD 0) := by
  cases op
  case fbBlit =>
    cases tail with
    | nil => exact absurd h (by decide)
    | cons w1 rest => exact ⟨w1, rfl, fun _ => rfl⟩
  all_goals exact ⟨0, rfl, fun _ => rfl⟩

/-- A command all of whose words have come is read at its length, legal or not. -/
theorem decode_of_commandLength_le {pages : Nat} {w0 : Word} {tail : List Word} {op : Opcode}
    (hop : opcodeOf w0 = some op) (hlen : op.commandLength pages (tail.headD 0) ≤ tail.length + 1) :
    (∃ i, decode pages (w0 :: tail) = .command i (op.commandLength pages (tail.headD 0))) ∨
      ∃ why, decode pages (w0 :: tail) = .illegal why (op.commandLength pages (tail.headD 0)) := by
  obtain ⟨w1, h1, hw1⟩ :=
    secondHeader_of_headerWords_le ((op.headerWords_le_commandLength pages (tail.headD 0)).trans hlen)
  rw [← hw1] at hlen ⊢
  cases hres : hasReservedBit op w0 w1
  · exact .inl ⟨_, decode_of_complete hop h1 hlen hres⟩
  · exact .inr ⟨_, decode_of_reservedBit hop h1 hlen hres⟩

end Sys2Proof

namespace Sys2Proof.Machine

/-! ## The block's step -/

/-- No effect of a command takes words off the channel or moves `pc`: the step has done so before (log entry 8). -/
theorem Effect.stream_eq {i : Instr} {s t : State} (h : Effect i s t) : t.pc = s.pc ∧ t.channel = s.channel := by
  cases h <;> exact ⟨rfl, rfl⟩

/-- A command that is read is executed, at its length. -/
theorem step_of_command {s : State} {i : Instr} {n : Nat} (hr : s.Ready) (h : s.fetch = .command i n) :
    step s = exec i (s.consume n) := by
  rw [step_of_ready hr, State.runCommand, h]

/-- A reserved encoding that is read is answered, at its length. -/
theorem step_of_illegal {s : State} {n : Nat} (hr : s.Ready) (h : s.fetch = .illegal n) :
    step s = .next ((s.consume n).raise .illegal) := by
  rw [step_of_ready hr, State.runCommand, h]

/-- Settles O38: the decoder answers from the first word alone. -/
theorem reservedOpcodeIsIllegal : Obligations.ReservedOpcodeIsIllegal := by
  intro s w rest hr hch hop
  have hdec : decode s.pageCount (channelWords s.channel) = .illegal .reservedOpcode 1 := by
    rw [hch]
    exact decode_of_reservedOpcode ((opcodeOf_eq_none_iff w).mpr hop)
  have hown : sentByOwner (s.channel.take 1) = true := by rw [hch]; rfl
  rw [step_of_illegal hr (State.fetch_of_illegal hdec hown), State.consume, hch]
  rfl

/-- Settles O39: the decoder finds the reserved bit once the command is whole, and looks at no other field. -/
theorem reservedBitIsIllegal : Obligations.ReservedBitIsIllegal := by
  intro s w0 w1 tail op hr ho hch hop h1 hlen hres
  have hdec : decode s.pageCount (channelWords s.channel) =
      .illegal .reservedBit (op.commandLength s.pageCount w1) := by
    rw [hch, List.length_cons] at hlen
    rw [hch]
    exact decode_of_reservedBit hop h1 ((length_channelWords tail).symm ▸ hlen) (hasReservedBit_eq_true_iff.mpr hres)
  rw [step_of_illegal hr (State.fetch_of_illegal hdec (sentByOwner_take ho _))]
  rfl

/-- Settles O36: the decoder reads the command at R61's length, legal or not, and no effect moves the stream again. -/
theorem commandIsConsumedAtItsLength : Obligations.CommandIsConsumedAtItsLength := by
  intro s w0 rest n hr ho hch hn hle
  rw [← length_channelWords, hch, List.length_cons] at hle
  have hdec : (∃ i, decode s.pageCount (channelWords s.channel) = .command i n) ∨
      ∃ why, decode s.pageCount (channelWords s.channel) = .illegal why n := by
    rw [hch]
    cases hop : opcodeOf w0 with
    | none =>
      have hone : n = 1 := by
        have hreserved := (opcodeOf_eq_none_iff w0).mp hop
        rw [hn]
        split <;> omega
      exact .inr ⟨_, hone ▸ decode_of_reservedOpcode hop⟩
    | some op =>
      have hlen : n = op.commandLength s.pageCount (rest.headD 0) := by
        rw [number_of_opcodeOf hop] at hn
        cases op <;>
          simpa [Opcode.number, State.pageCount, ceil4, blitPayloadBytes, blitWidth, blitHeight] using hn
      subst hlen
      exact decode_of_commandLength_le hop hle
  obtain ⟨i, hdec⟩ | ⟨why, hdec⟩ := hdec
  · obtain ⟨t, hexec, heffect⟩ := exec_effect (s := s.consume n) (wf_of_decode hdec)
    obtain ⟨hpc, hchannel⟩ := heffect.stream_eq
    exact ⟨t, (step_of_command hr (State.fetch_of_command hdec (sentByOwner_take ho n))).trans hexec, hpc, hchannel⟩
  · exact ⟨_, step_of_illegal hr (State.fetch_of_illegal hdec (sentByOwner_take ho n)), rfl, rfl⟩

/-- The words a step reads are on the channel, and as many as the command's length. -/
theorem State.length_of_fetch_command {s : State} {i : Instr} {n : Nat} (h : s.fetch = .command i n) :
    n = i.lengthWords s.pageCount ∧ n ≤ s.channel.length := by
  obtain ⟨w0, tail, op, w1, -, -, -, hn, hle, -, rfl⟩ := decode_command_inv (State.fetch_command_inv h).1
  exact ⟨hn.trans (Instr.lengthWords_assemble s.pageCount op w0 w1 _).symm, by rwa [length_channelWords] at hle⟩

theorem State.length_of_fetch_illegal {s : State} {n : Nat} (h : s.fetch = .illegal n) : n ≤ s.channel.length := by
  obtain ⟨⟨why, hdec⟩, -⟩ := State.fetch_illegal_inv h
  obtain ⟨w0, tail, -, hle, -⟩ := decode_illegal_inv hdec
  rwa [length_channelWords] at hle

/-- How many words the step takes off the channel: those of the command it reads, none where it reads none. -/
def Fetched.taken : Fetched → Nat
  | .command _ n => n
  | .illegal n => n
  | .awaiting | .foreign => 0

@[simp] theorem Fetched.taken_command (i : Instr) (n : Nat) : (Fetched.command i n).taken = n := rfl
@[simp] theorem Fetched.taken_illegal (n : Nat) : (Fetched.illegal n).taken = n := rfl
@[simp] theorem Fetched.taken_awaiting : Fetched.awaiting.taken = 0 := rfl

theorem State.taken_fetch_le (s : State) : s.fetch.taken ≤ s.channel.length := by
  cases h : s.fetch with
  | command i n => exact (State.length_of_fetch_command h).2
  | illegal n => exact State.length_of_fetch_illegal h
  | awaiting | foreign => exact Nat.zero_le _

/-- What a step between resets does to the command stream: with a transaction pending nothing; else the words of the
command that is read are taken, or the owner's are put at the end where none is. -/
theorem step_stream {s t : State} (hr : s.resetRequest = none) (h : step s = .next t) :
    (s.tmPhase ≠ .idle ∧ t.pc = s.pc ∧ t.channel = s.channel) ∨
      (s.tmPhase = .idle ∧ t.pc = s.pc + s.fetch.taken ∧
        ∃ ws, t.channel = s.channel.drop s.fetch.taken ++ ownerWords ws ∧ (ws ≠ [] → s.fetch = .awaiting)) := by
  obtain ⟨-, ⟨bk, txn, hp, rfl⟩ | ⟨hidle, ⟨i, n, hf, hx⟩ | ⟨n, hf, rfl⟩ | ⟨hf, rfl⟩⟩⟩ := step_cases hr h
  · exact .inl ⟨by simp [hp], by simp⟩
  · obtain ⟨hpc, hchannel⟩ := (effect_of_exec hx).2.stream_eq
    exact .inr ⟨hidle, by simp [hf, hpc], [], by simp [hf, hchannel, ownerWords], fun h => absurd rfl h⟩
  · exact .inr ⟨hidle, by simp [hf], [], by simp [hf, ownerWords], fun h => absurd rfl h⟩
  · exact .inr ⟨hidle, by simp [hf], s.ownerSends, by simp [hf], fun _ => hf⟩

/-- Settles O41: the stream moves by the words of the command that is read, which stand on the channel. -/
theorem streamPositionOnlyAdvances : Obligations.StreamPositionOnlyAdvances := by
  intro s t hr h
  obtain ⟨hpending, hpc, hchannel⟩ | ⟨hidle, hpc, ws, hchannel, hws⟩ := step_stream hr h
  · have hzero : t.pc - s.pc = 0 := by omega
    refine ⟨hpc.ge, by omega, ⟨[], by simp [hchannel, hzero, ownerWords], fun h => absurd rfl h⟩, ?_, ?_⟩
    · exact fun i n hidle => absurd hidle hpending
    · exact fun n hidle => absurd hidle hpending
  · have htaken : t.pc - s.pc = s.fetch.taken := by omega
    refine ⟨by omega, htaken ▸ s.taken_fetch_le, ⟨ws, htaken ▸ hchannel, fun h => ⟨hidle, hws h⟩⟩, ?_, ?_⟩
    · intro i n _ hf
      rw [hpc, hf, Fetched.taken_command, (State.length_of_fetch_command hf).1]
    · intro n _ hf
      rw [hpc, hf, Fetched.taken_illegal]

/-! ## The assembler (R78, R79) -/

theorem fit_of_lt {w n : Nat} (h : n < 2 ^ w) : fit w n = some (BitVec.ofNat w n) := if_pos h

/-- A line whose commands are well formed is assembled. -/
theorem assembleLine_of_wf {pages : Nat} {op : AsmOp} {args : List AsmArg} {is : List Instr}
    (h : assembleOp pages op args = some is) (hwf : ∀ i ∈ is, i.wf pages = true) :
    assembleLine pages op args = some is := by
  simpa [assembleLine, h] using hwf

/-- R78's example in text, and its trailing `inv` and hexadecimal numbers. -/
theorem assembleText_examples :
    (assembleText 8 "fb.setpix 5, 10, 1").map (·.flatMap encode) = some [0x4400A005] ∧
      (assembleText 8 "fb.getpix 0x5, 0x0A, inv").map (·.flatMap encode) = some [0x3800A005] := by decide +kernel

theorem assembleLine_pushall (pages : Nat) :
    assembleLine pages .pushall [] = some ((List.range pages).map fun p => .tmPush (BitVec.ofNat 8 p) 0 128) := by
  refine assembleLine_of_wf rfl fun i hi => ?_
  obtain ⟨p, -, rfl⟩ := List.mem_map.mp hi
  rfl

theorem assembleLine_clear (pages : Nat) :
    assembleLine pages .clear [] = some [.fbSetBuffer (List.replicate (pages * 128) 0)] :=
  assembleLine_of_wf rfl (by simp [Instr.wf])

theorem assembleLine_clrpage (pages : Nat) {p : Nat} (hp : p < 256) :
    assembleLine pages .clrpage [.num p] = some [.fbSetPage (BitVec.ofNat 8 p) (List.replicate 128 0)] :=
  assembleLine_of_wf (by rw [assembleOp, fit_of_lt hp]; rfl) (by simp [Instr.wf])

theorem assembleLine_clrpix (pages : Nat) {x y : Nat} (hx : x < 4096) (hy : y < 4096) :
    assembleLine pages .clrpix [.num x, .num y] =
      some [.fbSetPixel (BitVec.ofNat 12 x) (BitVec.ofNat 12 y) false false] :=
  assembleLine_of_wf (by rw [assembleOp, fit_of_lt hx, fit_of_lt hy]; rfl) (by simp [Instr.wf])

theorem assembleLine_pushpage (pages : Nat) {p : Nat} (hp : p < 256) :
    assembleLine pages .pushpage [.num p] = some [.tmPush (BitVec.ofNat 8 p) 0 128] :=
  assembleLine_of_wf (by rw [assembleOp, fit_of_lt hp]; rfl) (by simp [Instr.wf])

/-- Settles O7: R78's examples evaluated, and R79's rows, whose operands fit and whose payloads are whole. -/
theorem assemblerExpandsAsWritten : Obligations.AssemblerExpandsAsWritten := by
  obtain ⟨hsetpix, hgetpix⟩ := assembleText_examples
  exact ⟨hsetpix, hgetpix, fun pages _ => assembleLine_pushall pages, assembleLine_clear,
    fun pages _ hp => assembleLine_clrpage pages hp, fun pages _ _ hx hy => assembleLine_clrpix pages hx hy,
    fun pages _ hp => assembleLine_pushpage pages hp⟩

end Sys2Proof.Machine
end

section
/-! PROOFS. The statements about the bit functions (spec/40_bit_functions.md): each function bit by bit, and what one
pixel's write and read do to the framebuffer. -/

namespace Sys2Proof.Machine

/-! ## rotate_byte (R100) -/

theorem getLsbD_rotateByte_of_lt (b : Byte) {i : Nat} (hi : i < 8) :
    (rotateByte b).getLsbD i = b.getLsbD (7 - i) := by
  rw [getLsbD_rotateByte, decide_eq_true hi, Bool.true_and]

theorem rotateByte_of_palindrome {b : Byte} (h : ∀ i, i < 8 → b.getLsbD i = b.getLsbD (7 - i)) : rotateByte b = b :=
  byte_ext fun i hi => (getLsbD_rotateByte_of_lt b hi).trans (h i hi).symm

theorem rotateByte_examples : rotateByte 0x00 = 0x00 ∧ rotateByte 0xFF = 0xFF ∧ rotateByte 0x81 = 0x81 ∧
    rotateByte 0x5A = 0x5A ∧ rotateByte 0xA5 = 0xA5 ∧ rotateByte 0x01 = 0x80 ∧ rotateByte 0x12 = 0x48 := by decide

/-- Settles O8: the bits of the rotated byte, the involution, the palindromes, and R100's bytes evaluated. -/
theorem rotateByteReversesTheBits : Obligations.RotateByteReversesTheBits :=
  ⟨fun b _ hi => getLsbD_rotateByte_of_lt b hi, rotateByte_rotateByte, fun _ h => rotateByte_of_palindrome h,
    rotateByte_examples⟩

/-! ## copy_bit (R101) -/

theorem copyBit_examples : copyBit 0x04 2 0x00 7 = 0x80 ∧ copyBit 0x00 0 0xFF 3 = 0xF7 := by decide

/-- Settles O9: `getLsbD_copyBit` gives every bit of the result. -/
theorem copyBitReplacesOneBit : Obligations.CopyBitReplacesOneBit :=
  ⟨fun src dst sb _ i _ hdb _ => getLsbD_copyBit src sb dst hdb i, copyBit_examples⟩

/-! ## invert (R102) -/

@[simp] theorem length_invert (buf : List Byte) : (invert buf).length = buf.length := List.length_map _

/-- A byte's complement as a number: `~b = 255 - b`. -/
theorem toNat_getD_invert {buf : List Byte} {k : Nat} (h : k < buf.length) :
    ((invert buf).getD k 0).toNat = 255 - buf[k].toNat := by
  have hbyte : (invert buf).getD k 0 = ~~~buf[k] := by
    rw [List.getD_eq_getElem _ _ (by rwa [length_invert])]
    exact List.getElem_map _
  rw [hbyte, BitVec.toNat_not]

@[simp] theorem invert_invert (buf : List Byte) : invert (invert buf) = buf := by
  have hbyte : ((fun b : Byte => ~~~b) ∘ fun b => ~~~b) = id := funext fun b => BitVec.not_not
  rw [invert, invert, List.map_map, hbyte, List.map_id]

/-- The `inv` flag of a blit stands for its inverted source: the two commands pass the same checks, the payload's length
and the width, and draw the same bitmap (R114). -/
theorem execFbBlit_inv (xpos ypos width height : Coord) (src : List Byte) (s : State) :
    execFbBlit xpos ypos width height true src s = execFbBlit xpos ypos width height false (invert src) s := by
  rw [execFbBlit, execFbBlit, length_invert]
  rfl

theorem invert_examples : invert [] = [] ∧ invert [0x00, 0xFF, 0x5A] = [0xFF, 0x00, 0xA5] := by decide

/-- Settles O10: `invert` byte by byte, and `execFbBlit_inv` for the blit. -/
theorem invertComplementsEveryByte : Obligations.InvertComplementsEveryByte := by
  refine ⟨fun buf => ⟨length_invert buf, fun _ h => toNat_getD_invert h, invert_invert buf⟩, ?blit, invert_examples⟩
  case blit =>
    intro xpos ypos width height src s
    rw [exec_fbBlit, exec_fbBlit, execFbBlit_inv]

/-! ## pixbit (R103) -/

/-- To set or clear bit `r` of the rotated byte is to set or clear bit `7 - r` of the byte. -/
theorem rotateByte_copyBit_rotateByte (w src : Byte) (sb : Nat) {r : Nat} (hr : r < 8) :
    rotateByte (copyBit src sb (rotateByte w) r) = copyBit src sb w (7 - r) := by
  refine byte_ext fun i hi => ?_
  have hmirror : 7 - i = r ↔ i = 7 - r := by omega
  have htwice : 7 - (7 - i) = i := by omega
  calc (rotateByte (copyBit src sb (rotateByte w) r)).getLsbD i
      = (copyBit src sb (rotateByte w) r).getLsbD (7 - i) := getLsbD_rotateByte_of_lt _ hi
    _ = if 7 - i = r then src.getLsbD sb else (rotateByte w).getLsbD (7 - i) := getLsbD_copyBit _ _ _ hr _
    _ = if i = 7 - r then src.getLsbD sb else w.getLsbD i := by
        rw [getLsbD_rotateByte_of_lt w (by omega), htwice, if_congr hmirror rfl rfl]
    _ = (copyBit src sb w (7 - r)).getLsbD i := (getLsbD_copyBit _ _ _ (by omega) _).symm

theorem pixbit_examples : pixbit true 0 = 7 ∧ pixbit true 7 = 0 ∧ 10 / 8 = 1 ∧ pixbit true (10 % 8) = 5 := by decide

/-- Settles O11: the rotated byte's bits, and `pixRead_eq`, whose page and column do not depend on the flip. -/
theorem pixbitMirrorsTheBit : Obligations.PixbitMirrorsTheBit :=
  ⟨fun _ _ => ⟨rfl, rfl⟩, fun w src sb _ _ hr => rotateByte_copyBit_rotateByte w src sb hr, pixRead_eq,
    pixbit_examples⟩

/-! ## PixWrite and PixRead (R104) -/

/-- R104's example: pixel (5, 10) of a zero framebuffer, not flipped, is bit 2 of byte 133. -/
theorem read_pixWrite_example : (pixWrite false [] 5 10 true).read 133 = 0x04 := by decide

/-- The pixel just written is read back. -/
theorem pixRead_pixWrite_same (f : Bool) {fb : Memory} (h : fb.wf) {x : Nat} (hx : x < 128) (y : Nat) (v : Bool) :
    pixRead f (pixWrite f fb x y v) x y = v := by
  rw [pixRead_pixWrite f y v h hx hx, if_pos ⟨rfl, rfl⟩]

/-- Settles O12: the frame, the written byte bit by bit, the bit that is read, and the round trip. -/
theorem pixWriteChangesOneBit : Obligations.PixWriteChangesOneBit :=
  ⟨read_pixWrite_example, fun f fb x y v hwf hx =>
    ⟨fun _ ha => read_pixWrite_ne f fb x y v ha, fun _ hk => getLsbD_read_pixWrite_same f x y v hwf hk,
      pixRead_eq f fb x y, pixRead_pixWrite_same f hwf hx y v⟩⟩

end Sys2Proof.Machine
end

section
/-! PROOFS. The statements about the framebuffer commands (spec/41_framebuffer_ops.md): the words each is sent as, what
it answers, and what it leaves in the framebuffer. -/

namespace Sys2Proof

/-! ## Header words field by field (R65 to R68)

The formats are concatenations; the rules of R110 to R116 give a header word as its fields, shifted and joined. -/

section Headers

variable (op : BitVec 4) (inv val : Bool) (x y : Coord)

theorem formatP_eq_or (page : Byte) : formatP op page = op.setWidth 32 <<< 28 ||| page.setWidth 32 := by
  refine (BitVec.setWidth_eq _).symm.trans ?_
  rw [formatP, BitVec.setWidth_append_append_eq_shiftLeft_setWidth_or]
  simp

theorem formatX_eq_or : formatX op inv val y x =
    op.setWidth 32 <<< 28 ||| (BitVec.ofBool inv).setWidth 32 <<< 27 ||| (BitVec.ofBool val).setWidth 32 <<< 26 |||
      y.setWidth 32 <<< 12 ||| x.setWidth 32 := by
  refine (BitVec.setWidth_eq _).symm.trans ?_
  simp only [formatX, BitVec.setWidth_append_eq_shiftLeft_setWidth_or, BitVec.shiftLeft_or_distrib,
    ← BitVec.shiftLeft_add]
  simp

theorem formatB0_eq_or : formatB0 op inv y x =
    op.setWidth 32 <<< 28 ||| (BitVec.ofBool inv).setWidth 32 <<< 27 ||| y.setWidth 32 <<< 12 ||| x.setWidth 32 := by
  refine (BitVec.setWidth_eq _).symm.trans ?_
  simp only [formatB0, BitVec.setWidth_append_eq_shiftLeft_setWidth_or, BitVec.shiftLeft_or_distrib,
    ← BitVec.shiftLeft_add]
  simp

theorem formatB1_eq_or : formatB1 y x = y.setWidth 32 <<< 12 ||| x.setWidth 32 := by
  refine (BitVec.setWidth_eq _).symm.trans ?_
  rw [formatB1, BitVec.setWidth_append_append_eq_shiftLeft_setWidth_or]
  simp

end Headers

section Encode

variable (x y width height : Coord) (inv val : Bool) (page : Byte) (d : List Byte)

theorem encode_fbGetPage : encode (.fbGetPage page) = [0x10000000 ||| page.setWidth 32] := by
  rw [encode, formatP_eq_or]; rfl

theorem encode_fbSetPage : encode (.fbSetPage page d) = (0x20000000 ||| page.setWidth 32) :: packBytes d := by
  rw [encode, formatP_eq_or]; rfl

/-- FB_GET_PIXEL sends 0 in the bit of `val`. -/
theorem encode_fbGetPixel : encode (.fbGetPixel x y inv) =
    [0x30000000 ||| (BitVec.ofBool inv).setWidth 32 <<< 27 ||| y.setWidth 32 <<< 12 ||| x.setWidth 32] := by
  simp [encode, formatX_eq_or]

theorem encode_fbSetPixel : encode (.fbSetPixel x y val inv) =
    [0x40000000 ||| (BitVec.ofBool inv).setWidth 32 <<< 27 ||| (BitVec.ofBool val).setWidth 32 <<< 26 |||
      y.setWidth 32 <<< 12 ||| x.setWidth 32] := by
  rw [encode, formatX_eq_or]; rfl

theorem encode_fbBlit : encode (.fbBlit x y width height inv d) =
    (0x50000000 ||| (BitVec.ofBool inv).setWidth 32 <<< 27 ||| y.setWidth 32 <<< 12 ||| x.setWidth 32) ::
      (height.setWidth 32 <<< 12 ||| width.setWidth 32) :: packBytes d := by
  rw [encode, formatB0_eq_or, formatB1_eq_or]; rfl

theorem encode_fbGetBuffer : encode .fbGetBuffer = [0x60000000] := rfl

theorem encode_fbSetBuffer : encode (.fbSetBuffer d) = 0x70000000 :: packBytes d := rfl

end Encode

end Sys2Proof

namespace Sys2Proof.Machine

/-! ## Responses -/

theorem Response.length_words (r : Response) : r.words.length = 1 + ceil4 r.data.length := by
  rw [Response.words, List.length_cons, length_packBytes, Nat.add_comm]

/-- The response a command is seen to send is the one it answers. -/
theorem response_eq_of_answer {i : Instr} {s t : State} {r r' : Response} (h : exec i s = .next (s.answer r))
    (ht : exec i s = .next t) (hr : t.responses = s.responses ++ [r']) : r' = r := by
  obtain rfl : s.answer r = t := Host.Outcome.next.inj (h.symm.trans ht)
  rw [State.answer_responses, List.append_cancel_left_eq] at hr
  exact (List.singleton_inj.mp hr).symm

/-! ## Runs of bytes -/

theorem Memory.getD_readBytes (m : Memory) (a : Nat) {n k : Nat} (h : k < n) :
    (m.readBytes a n).getD k 0 = m.read (a + k) := by
  have hk : k < (m.readBytes a n).length := by rwa [Memory.length_readBytes]
  rw [List.getD_eq_getElem _ _ hk, Memory.getElem_readBytes]

theorem Memory.readBytes_at_zero (m : Memory) (n : Nat) : m.readBytes 0 n = (List.range n).map m.read := by
  simp only [Memory.readBytes, Nat.zero_add]

theorem Memory.readBytes_nil (a n : Nat) : Memory.readBytes [] a n = List.replicate n 0x00 := by
  simp [Memory.readBytes, Memory.unlisted]

theorem Memory.read_writeBytes_at_zero {m : Memory} (h : m.wf) (vs : List Byte) {k : Nat} (hk : k < vs.length) :
    (m.writeBytes 0 vs).read k = vs[k] := by
  rw [← Memory.read_writeBytes_same h 0 vs k hk, Nat.zero_add]

/-- The whole buffer written with the bytes read from another buffer of the same size is that other buffer. -/
theorem Memory.writeBytes_readBytes {m m' : Memory} {size : Nat} (h : m.wf) (hsize : m.below size) (h' : m'.wf)
    (hsize' : m'.below size) : m'.writeBytes 0 (m.readBytes 0 size) = m := by
  refine Memory.ext_of_wf (Memory.wf_writeBytes h' _ _) h fun a => ?_
  have hlen : (m.readBytes 0 size).length = size := Memory.length_readBytes m 0 size
  rcases Nat.lt_or_ge a size with ha | ha
  · rw [Memory.read_writeBytes_at_zero h' _ (by omega), Memory.getElem_readBytes, Nat.zero_add]
  · rw [Memory.read_writeBytes_ne _ _ _ (.inr (by omega)), Memory.read_of_below hsize' ha,
      Memory.read_of_below hsize ha]

/-! ## The page port (R110, R111) -/

/-- FB_GET_PAGE answers 128 bytes whether or not the page lies in the buffer. -/
theorem execFbGetPage_answers (page : Byte) (s : State) :
    ∃ data : List Byte, data.length = 128 ∧ execFbGetPage page s = .next (s.answer ⟨.ok, false, data⟩) := by
  cases h : s.pageInBounds page
  · exact ⟨_, List.length_replicate, execFbGetPage_of_out h⟩
  · exact ⟨_, Memory.length_readBytes _ _ _, execFbGetPage_of_in h⟩

/-- Settles O13: the page's bytes are `Memory.readBytes`, and 128 bytes are 32 words. -/
theorem getPageAnswersTheRawPage : Obligations.GetPageAnswersTheRawPage := by
  intro page s
  refine ⟨encode_fbGetPage page, fun h => execFbGetPage_of_in (State.pageInBounds_iff.mpr h), ?length,
    fun h => execFbGetPage_of_out (State.pageInBounds_eq_false_iff.mpr h)⟩
  case length =>
    intro t r ht hr
    obtain ⟨data, hlen, hexec⟩ := execFbGetPage_answers page s
    obtain rfl := response_eq_of_answer (i := .fbGetPage page) hexec ht hr
    rw [Response.length_words, hlen]
    rfl

/-- Settles O14: the page in the buffer is a run of bytes written, which is read back and leaves the rest alone. -/
theorem setPageStoresTheRawPage : Obligations.SetPageStoresTheRawPage := by
  intro page d s hd hwf
  refine ⟨encode_fbSetPage page d, length_encode (pages := 0) (beq_iff_eq.mpr hd), fun h => ?_,
    fun h => execFbSetPage_of_out hd (State.pageInBounds_eq_false_iff.mpr h)⟩
  exact ⟨_, execFbSetPage_of_in hd (State.pageInBounds_iff.mpr h),
    fun c hc => Memory.read_writeBytes_same hwf _ d c hc,
    fun a ha => Memory.read_writeBytes_ne _ _ d (hd.symm ▸ ha)⟩

/-! ## The pixel port (R112, R113) -/

section PixelPort

variable {s : State} {x y : Coord} (val inv : Bool)

theorem execFbGetPixel_of_in (h : s.pixelInBounds x.toNat y.toNat = true) :
    execFbGetPixel x y inv s = .next (s.answer ⟨.ok, pixRead s.cfg.flip s.fb x.toNat y.toNat ^^ inv, []⟩) :=
  if_pos h

theorem execFbGetPixel_of_out (h : s.pixelInBounds x.toNat y.toNat = false) :
    execFbGetPixel x y inv s = .next (s.answer ⟨.ok, false, []⟩) :=
  if_neg (by simp [h])

theorem execFbSetPixel_of_in (h : s.pixelInBounds x.toNat y.toNat = true) :
    execFbSetPixel x y val inv s =
      .next ((s.setFb (pixWrite s.cfg.flip s.fb x.toNat y.toNat (val ^^ inv))).answer ⟨.ok, false, []⟩) := by
  rw [execFbSetPixel, State.drawPixel_of_in _ _ _ h, State.respond_eq_answer]

theorem execFbSetPixel_of_out (h : s.pixelInBounds x.toNat y.toNat = false) :
    execFbSetPixel x y val inv s = .next (s.answer ⟨.ok, false, []⟩) := by
  rw [execFbSetPixel, State.drawPixel_of_out _ _ _ h]
  rfl

end PixelPort

/-- Settles O15: in bounds the bit is `PixRead`'s, which `pixRead_eq` gives. -/
theorem getPixelAnswersTheBit : Obligations.GetPixelAnswersTheBit := by
  intro x y inv s
  refine ⟨encode_fbGetPixel x y inv, fun hx hy => ?_,
    fun h => execFbGetPixel_of_out inv (State.pixelInBounds_eq_false_iff.mpr h)⟩
  rw [exec_fbGetPixel, execFbGetPixel_of_in inv (State.pixelInBounds_iff.mpr ⟨hx, hy⟩), pixRead_eq]
  rfl

/-- Settles O16: in bounds the framebuffer left is `PixWrite`'s, whose frame and written bit are laws. -/
theorem setPixelWritesOneBit : Obligations.SetPixelWritesOneBit := by
  intro x y val inv s hwf
  refine ⟨encode_fbSetPixel x y inv val, fun hx hy => ?_,
    fun h => execFbSetPixel_of_out val inv (State.pixelInBounds_eq_false_iff.mpr h)⟩
  exact ⟨_, execFbSetPixel_of_in val inv (State.pixelInBounds_iff.mpr ⟨hx, hy⟩),
    fun a ha => read_pixWrite_ne _ _ _ _ _ ha,
    fun k hk => getLsbD_read_pixWrite_same _ _ _ _ hwf hk,
    fun hsame => hsame ▸ pixWrite_pixRead_self _ _ _ hwf⟩

/-! ## The region writer (R114) -/

/-- A blit of no columns or no rows has no pixel to write. -/
theorem State.blit_of_empty {s : State} (h : s.fb.wf) {width height : Nat} (hempty : width = 0 ∨ height = 0)
    (xpos ypos : Nat) (bitmap : List Byte) : s.blit xpos ypos width height bitmap = s.fb :=
  Memory.ext_of_wf (State.wf_blit _ _ _ _ _ h) h fun _ => State.read_blit_ne _ _ _ _ _ fun i hi j hj => by omega

/-- A pixel of the rectangle has its byte in the bitmap. -/
theorem bitmapIndex_lt {width height i j : Nat} (hwidth : width % 8 = 0) (hi : i < width) (hj : j < height) :
    j * (width / 8) + i / 8 < (width + 7) / 8 * height := by
  have hbytes : (width + 7) / 8 = width / 8 := by omega
  calc j * (width / 8) + i / 8
      < j * (width / 8) + width / 8 := by omega
    _ = (j + 1) * (width / 8) := (Nat.succ_mul _ _).symm
    _ ≤ height * (width / 8) := Nat.mul_le_mul_right _ hj
    _ = (width + 7) / 8 * height := by rw [hbytes, Nat.mul_comm]

/-- Inverting a bitmap, or not, complements its bits, or not. -/
theorem bitmapBit_invert (inv : Bool) {width i j : Nat} {bitmap : List Byte}
    (h : j * (width / 8) + i / 8 < bitmap.length) :
    bitmapBit width (if inv then invert bitmap else bitmap) i j = (bitmapBit width bitmap i j ^^ inv) := by
  cases inv
  · simp
  · simp [bitmapBit, invert, h, show 7 - i % 8 < 8 by omega]

/-- Settles O17: the drawn bitmap's laws, the source bit complemented where `inv` inverts the bitmap. -/
theorem blitReplacesTheRectangle : Obligations.BlitReplacesTheRectangle := by
  intro xpos ypos width height inv src s hlen hwf
  refine ⟨encode_fbBlit xpos ypos width height inv src, length_encode (pages := 0) (beq_iff_eq.mpr hlen),
    fun hmisfit => execFbBlit_of_misfit hlen hmisfit, fun hfit => ?_⟩
  refine ⟨_, execFbBlit_of_fit hlen hfit, fun x y hx hy => ?pixel,
    fun a ha => State.read_blit_ne _ _ _ _ _ ha,
    fun a ha => State.read_blit_outside _ _ _ _ _ ha,
    fun hempty => State.blit_of_empty hwf hempty _ _ _⟩
  case pixel =>
    refine (State.pixRead_blit _ _ _ _ _ hwf (State.pixelInBounds_iff.mpr ⟨hx, hy⟩)).trans ?_
    refine ite_congr rfl (fun hin => ?_) fun _ => rfl
    have hbyte := bitmapIndex_lt (i := x - xpos.toNat) (j := y - ypos.toNat) (height := height.toNat) hfit
      (by omega) (by omega)
    exact bitmapBit_invert inv (hlen ▸ hbyte)

/-! ## The bulk port (R115, R116) -/

/-- Settles O18: the whole buffer is `Memory.readBytes` from address 0. -/
theorem getBufferAnswersTheWholeBuffer : Obligations.GetBufferAnswersTheWholeBuffer := by
  intro s
  have hexec : exec .fbGetBuffer s = .next (s.answer ⟨.ok, false, s.fb.readBytes 0 s.fbSize⟩) := execFbGetBuffer_eq s
  refine ⟨encode_fbGetBuffer, ?data, ?length, ?zero⟩
  case data =>
    rw [hexec, Memory.readBytes_at_zero]
    rfl
  case length =>
    intro t r ht hr
    obtain rfl := response_eq_of_answer hexec ht hr
    rw [Response.length_words, Memory.length_readBytes, State.fbSize_eq, State.pageCount, ceil4]
    omega
  case zero =>
    intro hzero
    have hdata : s.fb.readBytes 0 s.fbSize = List.replicate s.fbSize 0x00 := by rw [hzero, Memory.readBytes_nil]
    rw [hexec, hdata]
    rfl

/-- Where the byte of a pixel is 0xFF the pixel reads 1, flipped or not. -/
theorem pixRead_of_allOnes {f : Bool} {fb : Memory} {x y : Nat} (h : fb.read (pixelAddress x y) = 0xFF) :
    pixRead f fb x y = true := by
  rw [pixRead_eq, h, show (0xFF : Byte) = BitVec.allOnes 8 from rfl, BitVec.getLsbD_allOnes]
  exact decide_eq_true (pixbit_lt f (Nat.mod_lt _ (by decide)))

/-- A buffer of bytes 0xFF shows every pixel as 1. -/
theorem pixRead_writeBytes_allOnes (f : Bool) {m : Memory} (h : m.wf) {pages x y : Nat} (hx : x < 128)
    (hy : y < 8 * pages) : pixRead f (m.writeBytes 0 (List.replicate (pages * 128) 0xFF)) x y = true := by
  have hk : pixelAddress x y < (List.replicate (pages * 128) (0xFF : Byte)).length :=
    List.length_replicate.symm ▸ pixelAddress_lt hx hy
  exact pixRead_of_allOnes ((Memory.read_writeBytes_at_zero h _ hk).trans (List.getElem_replicate hk))

/-- A snapshot answered by one state and stored in another of the same size. -/
theorem execFbSetBuffer_restores {s u : State} (hs : s.fb.wf) (hsize : s.fb.below s.fbSize) (hu : u.fb.wf)
    (husize : u.fb.below u.fbSize) (hpages : u.cfg.pages = s.cfg.pages) :
    execFbSetBuffer (s.fb.readBytes 0 s.fbSize) u = .next ((u.setFb s.fb).answer ⟨.ok, false, []⟩) := by
  have hfbSize : u.fbSize = s.fbSize := by simp only [State.fbSize_eq, State.pageCount, hpages]
  rw [hfbSize] at husize
  rw [execFbSetBuffer_of_length ((Memory.length_readBytes _ _ _).trans hfbSize.symm),
    Memory.writeBytes_readBytes hs hsize hu husize, State.respond_eq_answer]

/-- Settles O19: the whole buffer is a run of bytes written at address 0; a snapshot of the same size restores it. -/
theorem setBufferStoresTheWholeBuffer : Obligations.SetBufferStoresTheWholeBuffer := by
  refine ⟨fun d s hd hwf => ?store, fun _ _ hs hsize hu husize hpages => ?restore⟩
  case store =>
    refine ⟨encode_fbSetBuffer d, length_encode (beq_iff_eq.mpr hd), _, execFbSetBuffer_of_length hd,
      fun k hk => Memory.read_writeBytes_at_zero hwf d hk,
      fun a ha => Memory.read_writeBytes_ne _ _ _ (.inr (by omega)), ?_⟩
    rintro rfl x y hx hy
    exact pixRead_writeBytes_allOnes _ hwf hx hy
  case restore =>
    exact ⟨_, _, _, execFbGetBuffer_eq _, rfl, execFbSetBuffer_restores hs hsize hu husize hpages, rfl⟩

/-! ## The ports side by side (R117) -/

/-- Bit `b` of byte `c` of page `p` is the pixel in column `c` and row `pixbit b` of the page. -/
theorem pixRead_pageRow (f : Bool) (fb : Memory) (p c : Nat) {b : Nat} (hb : b < 8) :
    pixRead f fb c (8 * p + pixbit f b) = (fb.read (p * 128 + c)).getLsbD b := by
  have hrow := pixbit_lt f hb
  have haddress : pixelAddress c (8 * p + pixbit f b) = p * 128 + c := by rw [pixelAddress]; omega
  have hbit : (8 * p + pixbit f b) % 8 = pixbit f b := by omega
  rw [pixRead_eq, haddress, hbit, pixbit_pixbit f hb]

/-- The pixel port answers the bit of a page's byte, at the row that `pixbit` gives it. -/
theorem execFbGetPixel_pageRow {s : State} {page : Byte} {c b : Nat} (hpage : page.toNat < s.pageCount) (hc : c < 128)
    (hb : b < 8) :
    execFbGetPixel (BitVec.ofNat 12 c) (BitVec.ofNat 12 (8 * page.toNat + pixbit s.cfg.flip b)) false s =
      .next (s.answer ⟨.ok, (s.fb.read (page.toNat * 128 + c)).getLsbD b, []⟩) := by
  have hrow := pixbit_lt s.cfg.flip hb
  have hx : (BitVec.ofNat 12 c).toNat = c := (BitVec.toNat_ofNat _ _).trans (Nat.mod_eq_of_lt (by omega))
  have hy : (BitVec.ofNat 12 (8 * page.toNat + pixbit s.cfg.flip b)).toNat = 8 * page.toNat + pixbit s.cfg.flip b :=
    (BitVec.toNat_ofNat _ _).trans (Nat.mod_eq_of_lt (by omega))
  have hin : s.pixelInBounds c (8 * page.toNat + pixbit s.cfg.flip b) = true :=
    State.pixelInBounds_iff.mpr ⟨hc, by omega⟩
  rw [execFbGetPixel_of_in false (by rwa [hx, hy]), hx, hy, pixRead_pageRow _ _ _ _ hb, Bool.xor_false]

/-- Settles O20: the three ports answer the same bit of the same byte. -/
theorem pagePortAndPixelPortAgree : Obligations.PagePortAndPixelPortAgree := by
  intro s page c b hpage hc hb
  have haddress : page.toNat * 128 + c < s.fbSize := by rw [State.fbSize_eq, State.pageCount]; omega
  refine ⟨_, _, _, _, _, _, execFbGetPage_of_in (State.pageInBounds_iff.mpr hpage), rfl, execFbGetBuffer_eq s, rfl,
    execFbGetPixel_pageRow hpage hc hb, rfl, ?page, ?whole⟩
  case page =>
    rw [Memory.getD_readBytes _ _ hc]
    rfl
  case whole => rw [Memory.getD_readBytes _ _ haddress, Nat.zero_add]

end Sys2Proof.Machine
end

section
/-! PROOFS. The statements about the transport commands (spec/42_transport_ops.md): what each hands over, what completes
it, which backing receives it, and that the owner cannot tell which. -/

namespace Sys2Proof

/-! ## The transport commands' words (R69, R70) -/

theorem formatT_eq_or (op : BitVec 4) (count col page : Byte) : formatT op count col page =
    op.setWidth 32 <<< 28 ||| count.setWidth 32 <<< 16 ||| col.setWidth 32 <<< 8 ||| page.setWidth 32 := by
  refine (BitVec.setWidth_eq _).symm.trans ?_
  simp only [formatT, BitVec.setWidth_append_eq_shiftLeft_setWidth_or, BitVec.shiftLeft_or_distrib,
    ← BitVec.shiftLeft_add]
  simp

theorem formatC_eq_or (op : BitVec 4) (arg : Byte) : formatC op arg = op.setWidth 32 <<< 28 ||| arg.setWidth 32 :=
  formatP_eq_or op arg

theorem encode_tmPush (page col count : Byte) : encode (.tmPush page col count) =
    [0x80000000 ||| count.setWidth 32 <<< 16 ||| col.setWidth 32 <<< 8 ||| page.setWidth 32] := by
  rw [encode, formatT_eq_or]; rfl

theorem encode_tmSetContrast (level : Byte) : encode (.tmSetContrast level) = [0x90000000 ||| level.setWidth 32] := by
  rw [encode, formatC_eq_or]; rfl

theorem encode_tmSetScrollMode (selector : Byte) :
    encode (.tmSetScrollMode selector) = [0xA0000000 ||| selector.setWidth 32] := by
  rw [encode, formatC_eq_or]; rfl

end Sys2Proof

namespace Sys2Proof.Machine

/-! ## The backing's step (R140, R144) -/

/-- A pending transaction is recorded with its outcome and answered, and nothing else changes. -/
theorem step_completes_pending {s : State} {bk : Backing} {txn : Transaction} (hr : s.resetRequest = none)
    (hl : s.cfg.legal = true) (hp : s.tmPhase = .pending bk txn) :
    ∃ o n, step s = .next { s with
      tmPhase := .idle
      hist := s.hist ++ [⟨bk, txn, o⟩]
      draws := n
      responses := s.responses ++ [⟨if o = .ack then .ok else .busfail, false, []⟩] } := by
  obtain ⟨o, ho⟩ := s.backingReturns_cases bk txn
  exact ⟨o, s.draws + 1, by rw [step_of_pending hr hl hp, ho]; rfl⟩

/-- A failed push leaves nothing known of its region, scrolling or not. -/
theorem PanelByte.after_failed_push_ne_known {a : Nat} {page col : Byte} {bytes : List Byte}
    (h : pageAddress page + col.toNat ≤ a ∧ a < pageAddress page + col.toNat + bytes.length) (p : PanelByte)
    (bk : Backing) (b : Byte) :
    p.after a { backing := bk, txn := .writeRegion page col bytes, outcome := .fail } ≠ .known b := by
  by_cases hp : p = .scrolling
  · simp [hp]
  · simp [PanelByte.after_writeRegion hp, h]

/-- Settles O27: the step is the backing's, and the panel's view counts the failed transaction last. -/
theorem pendingTransactionCompletes : Obligations.PendingTransactionCompletes := by
  intro s bk txn hr hl hp
  obtain ⟨o, n, hstep⟩ := step_completes_pending hr hl hp
  refine ⟨o, n, hstep, ?_⟩
  rintro page col bytes a b rfl hmin hmax
  rw [State.panelByte_complete]
  exact PanelByte.after_failed_push_ne_known ⟨hmin, hmax⟩ _ bk b

/-! ## What each command hands over (R143, R145, R146) -/

/-- Settles O24: the region sent is a run of bytes read, and the backing's step completes it. -/
theorem pushSendsTheClampedRegion : Obligations.PushSendsTheClampedRegion := by
  intro page col count s
  refine ⟨encode_tmPush page col count,
    fun h => execTmPush_of_not_sends (State.pushSends_eq_false_iff.mpr h), fun hpage hcol hcount => ?_⟩
  exact ⟨_, _, rfl, rfl, execTmPush_of_sends (State.pushSends_iff.mpr ⟨hpage, hcol, hcount⟩),
    fun hr hl => step_completes_pending (s := s.setPhase _) hr hl rfl⟩

/-- Settles O25: the level is handed over as it is, and the backing's step completes it. -/
theorem setContrastForwardsTheLevel : Obligations.SetContrastForwardsTheLevel := by
  intro level s
  exact ⟨encode_tmSetContrast level, s.emit (.setContrast level), rfl, exec_tmSetContrast s level,
    fun hr hl => step_completes_pending (s := s.setPhase _) hr hl rfl⟩

/-- Settles O26: the selector is handed over as it is, and the backing's step completes it. -/
theorem setScrollModeForwardsTheSelector : Obligations.SetScrollModeForwardsTheSelector := by
  intro selector s
  exact ⟨encode_tmSetScrollMode selector, s.emit (.scrollMode selector), rfl, exec_tmSetScrollMode s selector,
    fun hr hl => step_completes_pending (s := s.setPhase _) hr hl rfl⟩

/-! ## Who emits, and to which backing (R141, R147) -/

theorem Effect.cfg_eq {i : Instr} {s t : State} (h : Effect i s t) : t.cfg = s.cfg := by
  cases h <;> rfl

/-- A command leaves the phase alone, or hands the selected backing a transaction of the command's own kind. -/
theorem Effect.tmPhase_cases {i : Instr} {s t : State} (h : Effect i s t) :
    t.tmPhase = s.tmPhase ∨ ∃ txn, t.tmPhase = .pending s.cfg.transportKind txn ∧ i.emits txn = true := by
  cases h with
  | answered r => exact .inl (State.answer_tmPhase s r)
  | stored fb => exact .inl rfl
  | emitted txn kind => exact .inr ⟨txn, State.setPhase_tmPhase s _, kind⟩

/-- What construction gives, if it gives a state. -/
theorem construct_eq_next {a : ConstructionArgs} {t : State} (h : construct a = .next t) : t = State.constructed a := by
  cases hlegal : a.legal
  · rw [construct_of_illegal hlegal] at h; cases h
  · rw [construct_of_legal hlegal] at h
    exact (Host.Outcome.next.inj h).symm

/-- Settles O30: a transaction is handed over by one of a command's three effects alone, and by no construction. -/
theorem onlyTransportCommandsEmit : Obligations.OnlyTransportCommandsEmit := by
  refine ⟨fun i s t h => ⟨exec_hist h, (effect_of_exec h).2.tmPhase_cases⟩, fun a t h => ?_⟩
  obtain rfl := construct_eq_next h
  exact ⟨State.constructed_hist a, State.constructed_tmPhase a⟩

/-- `cfg` is read-only between resets. -/
theorem step_cfg {s t : State} (hr : s.resetRequest = none) (h : step s = .next t) : t.cfg = s.cfg := by
  obtain ⟨-, ⟨bk, txn, -, rfl⟩ | ⟨-, ⟨i, n, -, hx⟩ | ⟨n, -, rfl⟩ | ⟨-, rfl⟩⟩⟩ := step_cases hr h
  · rfl
  · rw [(effect_of_exec hx).2.cfg_eq, State.consume_cfg]
  · rfl
  · exact State.ownerTurn_cfg s

/-- From Idle a transaction becomes pending only for the selected backing. -/
theorem step_tmPhase_of_idle {s t : State} (hr : s.resetRequest = none) (hi : s.tmPhase = .idle)
    (h : step s = .next t) : t.tmPhase = .idle ∨ ∃ txn, t.tmPhase = .pending s.cfg.transportKind txn := by
  obtain ⟨-, ⟨bk, txn, hp, -⟩ | ⟨-, ⟨i, n, -, hx⟩ | ⟨n, -, rfl⟩ | ⟨-, rfl⟩⟩⟩ := step_cases hr h
  · rw [hi] at hp; cases hp
  · obtain hsame | ⟨txn, hemit, -⟩ := (effect_of_exec hx).2.tmPhase_cases
    · exact .inl (hsame.trans hi)
    · exact .inr ⟨txn, hemit⟩
  · exact .inl hi
  · exact .inl hi

/-- Settles O28: from Idle the history stays and what becomes pending goes to the selected backing; from pending the
step records that transaction under its own backing. -/
theorem transactionsGoToTheSelectedBacking : Obligations.TransactionsGoToTheSelectedBacking := by
  intro s t hr h hhist hpending
  refine ⟨congrArg ConfigRegs.transportKind (step_cfg hr h), ?_⟩
  cases hp : s.tmPhase with
  | idle =>
    rw [step_hist_of_idle hr hp h]
    refine ⟨hhist, fun bk txn ht => ?_⟩
    obtain hidle | ⟨txn', hemit⟩ := step_tmPhase_of_idle hr hp h
    · rw [hidle] at ht; cases ht
    · rw [hemit] at ht; cases ht; rfl
  | pending bk txn =>
    have hbk := hpending bk txn hp
    obtain ⟨o, ho⟩ := s.backingReturns_cases bk txn
    rw [step_eq_backingReturns hr hp h, ho]
    simpa [or_imp, forall_and, hbk] using hhist

/-! ## The backing is invisible (R142) -/

/-- The same state with `k` as `cfg.TRANSPORT_KIND`. -/
def State.withBacking (s : State) (k : Backing) : State := { s with cfg := { s.cfg with transportKind := k } }

/-- An outcome with its next state, if it has one, replaced by what `f` makes of it. -/
def mapNext (f : State → State) : Host.Outcome State Fault Refusal → Host.Outcome State Fault Refusal
  | .next t => .next (f t)
  | .fault e => .fault e
  | .refused e => .refused e

section WithBacking

variable (s : State) (k : Backing)

theorem State.respondRead_withBacking (a n : Nat) :
    (s.withBacking k).respondRead a n = mapNext (·.withBacking k) (s.respondRead a n) := by
  have hread : (s.withBacking k).memRead a n = s.memRead a n := rfl
  rw [State.respondRead, State.respondRead, hread]
  cases s.memRead a n <;> rfl

theorem State.writeRespond_withBacking (a : Nat) (bytes : List Byte) :
    (s.withBacking k).writeRespond a bytes = mapNext (·.withBacking k) (s.writeRespond a bytes) := by
  have hwrite : (s.withBacking k).memWrite a bytes = (s.memWrite a bytes).map (·.withBacking k) := by
    rw [State.memWrite, State.memWrite, apply_ite (Option.map _)]
    rfl
  rw [State.writeRespond, State.writeRespond, hwrite]
  cases s.memWrite a bytes <;> rfl

/-- A command that hands over no transaction never looks at the backing. -/
theorem exec_withBacking_of_silent {i : Instr} (h : ∀ txn, i.emits txn = false) :
    exec i (s.withBacking k) = mapNext (·.withBacking k) (exec i s) := by
  cases i with
  | fbGetPage page =>
    rw [exec_fbGetPage, exec_fbGetPage, execFbGetPage, State.respondRead_withBacking, execFbGetPage,
      apply_ite (mapNext _)]
    rfl
  | fbSetPage page d =>
    rw [exec_fbSetPage, exec_fbSetPage, execFbSetPage, State.writeRespond_withBacking, execFbSetPage,
      apply_ite (mapNext _), apply_ite (mapNext _)]
    rfl
  | fbGetPixel x y inv =>
    rw [exec_fbGetPixel, exec_fbGetPixel, execFbGetPixel, execFbGetPixel, apply_ite (mapNext _)]
    rfl
  | fbSetPixel x y val inv => rfl
  | fbBlit xpos ypos width height inv d =>
    rw [exec_fbBlit, exec_fbBlit, execFbBlit, execFbBlit, apply_ite (mapNext _), apply_ite (mapNext _)]
    rfl
  | fbGetBuffer => exact State.respondRead_withBacking s k 0 s.fbSize
  | fbSetBuffer d =>
    rw [exec_fbSetBuffer, exec_fbSetBuffer, execFbSetBuffer, State.writeRespond_withBacking, execFbSetBuffer,
      apply_ite (mapNext _)]
    rfl
  | tmPush page col count => simpa [Instr.emits] using h (.writeRegion page col [])
  | tmSetContrast level => simpa [Instr.emits] using h (.setContrast level)
  | tmSetScrollMode selector => simpa [Instr.emits] using h (.scrollMode selector)

end WithBacking

/-- With another backing selected a command leaves the same state but for that register, or hands the same transaction
to the other backing. -/
theorem exec_withBacking {i : Instr} {s t : State} (k : Backing) (h : exec i s = .next t) :
    exec i (s.withBacking k) = .next (t.withBacking k) ∨
      ∃ txn, t = s.emit txn ∧ exec i (s.withBacking k) = .next ((s.withBacking k).emit txn) := by
  cases i with
  | tmPush page col count =>
    rw [exec_tmPush] at h
    cases hsends : s.pushSends page col count
    · rw [execTmPush_of_not_sends hsends] at h
      obtain rfl := Host.Outcome.next.inj h
      exact .inl (execTmPush_of_not_sends (s := s.withBacking k) hsends)
    · rw [execTmPush_of_sends hsends] at h
      exact .inr ⟨_, (Host.Outcome.next.inj h).symm, execTmPush_of_sends (s := s.withBacking k) hsends⟩
  | tmSetContrast level => exact .inr ⟨_, (Host.Outcome.next.inj h).symm, rfl⟩
  | tmSetScrollMode selector => exact .inr ⟨_, (Host.Outcome.next.inj h).symm, rfl⟩
  | _ =>
    refine .inl ?_
    rw [exec_withBacking_of_silent s k fun _ => rfl, h]
    rfl

/-- Settles O29: a command sees the backing only where it hands over, and a completion only in the history's new entry. -/
theorem backingIsInvisibleToTheOwner : Obligations.BackingIsInvisibleToTheOwner := by
  refine ⟨fun i s t k h => ?command, fun s s' bk k txn hr hl hp hs' => ?completion⟩
  case command =>
    obtain hsame | ⟨txn, rfl, hemit⟩ := exec_withBacking k h
    · exact ⟨t.withBacking k, hsame, rfl, .inl rfl⟩
    · exact ⟨(s.withBacking k).emit txn, hemit, rfl, .inr ⟨txn, rfl, rfl⟩⟩
  case completion =>
    subst hs'
    exact ⟨⟨_, step_of_pending hr hl hp⟩, ⟨_, step_setPhase_pending (s := s.withBacking k) hr hl⟩, fun _ => rfl⟩

end Sys2Proof.Machine
end

section
/-! PROOFS. The statements about errors and about who steps (spec/60_exceptions.md): what a command does rests on the
configuration and the framebuffer alone, what the owner's turn leaves, and which agent's step changes what. -/

namespace Sys2Proof.Machine

/-! ## What a command does rests on `cfg` and `FB` alone (R161) -/

/-- What a command does, as data: a response, a store with the response OK, or a transaction handed over. -/
inductive Deed where
  | answer (r : Response)
  | store (fb : Memory)
  | handOver (txn : Transaction)

/-- A deed done in a state. -/
def Deed.on : Deed → State → State
  | .answer r, s => s.answer r
  | .store fb, s => (s.setFb fb).respond []
  | .handOver txn, s => s.emit txn

/-- The same state but for `cfg` and `FB`, which are those of `s`. -/
def State.withStorageOf (u s : State) : State := { u with cfg := s.cfg, fb := s.fb }

/-- A well-formed command does the same deed in every state with this `cfg` and this `FB`. -/
theorem exec_deed {i : Instr} {s : State} (hwf : i.wf s.pageCount = true) :
    ∃ d : Deed, ∀ u : State, exec i (u.withStorageOf s) = .next (d.on (u.withStorageOf s)) := by
  cases i with
  | fbGetPage page =>
    cases h : s.pageInBounds page
    · exact ⟨.answer ⟨.ok, false, List.replicate 128 0⟩, fun _ => execFbGetPage_of_out h⟩
    · exact ⟨.answer ⟨.ok, false, s.fb.readBytes (pageAddress page) 128⟩, fun _ => execFbGetPage_of_in h⟩
  | fbSetPage page d =>
    have hd : d.length = 128 := beq_iff_eq.mp hwf
    cases h : s.pageInBounds page
    · exact ⟨.answer ⟨.ok, false, []⟩, fun _ => execFbSetPage_of_out hd h⟩
    · exact ⟨.store (s.fb.writeBytes (pageAddress page) d), fun _ => execFbSetPage_of_in hd h⟩
  | fbGetPixel x y inv =>
    cases h : s.pixelInBounds x.toNat y.toNat
    · exact ⟨.answer ⟨.ok, false, []⟩, fun _ => execFbGetPixel_of_out inv h⟩
    · exact ⟨.answer ⟨.ok, pixRead s.cfg.flip s.fb x.toNat y.toNat ^^ inv, []⟩, fun _ => execFbGetPixel_of_in inv h⟩
  | fbSetPixel x y val inv => exact ⟨.store (s.drawPixel s.fb x.toNat y.toNat (val ^^ inv)), fun _ => rfl⟩
  | fbBlit xpos ypos width height inv d =>
    have hd : d.length = blitPayloadBytes width height := beq_iff_eq.mp hwf
    by_cases h : width.toNat % 8 = 0
    · exact ⟨.store (s.blit xpos.toNat ypos.toNat width.toNat height.toNat (if inv then invert d else d)),
        fun _ => execFbBlit_of_fit hd h⟩
    · exact ⟨.answer ⟨.eprecond, false, []⟩, fun _ => execFbBlit_of_misfit hd h⟩
  | fbGetBuffer =>
    exact ⟨.answer ⟨.ok, false, s.fb.readBytes 0 s.fbSize⟩, fun u => execFbGetBuffer_eq (u.withStorageOf s)⟩
  | fbSetBuffer d =>
    have hd : d.length = s.fbSize := beq_iff_eq.mp hwf
    exact ⟨.store (s.fb.writeBytes 0 d), fun _ => execFbSetBuffer_of_length hd⟩
  | tmPush page col count =>
    cases h : s.pushSends page col count
    · exact ⟨.answer ⟨.ok, false, []⟩, fun _ => execTmPush_of_not_sends h⟩
    · exact ⟨.handOver (.writeRegion page col (s.fb.readBytes (pageAddress page + col.toNat) (pushCount col count))),
        fun _ => execTmPush_of_sends h⟩
  | tmSetContrast level => exact ⟨.handOver (.setContrast level), fun _ => rfl⟩
  | tmSetScrollMode selector => exact ⟨.handOver (.scrollMode selector), fun _ => rfl⟩

/-- Over another record of responses and another history a deed adds the same responses, and no entry. -/
theorem Deed.on_with_responses_hist (d : Deed) (s : State) (rs : List Response) (h : List HistEntry) :
    d.on { s with responses := rs, hist := h } =
      { d.on s with responses := rs ++ (d.on s).responses.drop s.responses.length, hist := h } := by
  cases d <;> simp [Deed.on, State.answer, State.setFb, State.setPhase]

/-- Settles O34: both executions do the deed that `cfg` and `FB` give, which are the same in both states. -/
theorem statusIsNotSticky : Obligations.StatusIsNotSticky := by
  intro i s t rs h hx
  obtain ⟨d, hd⟩ := exec_deed (effect_of_exec hx).1
  obtain rfl : d.on s = t := Host.Outcome.next.inj ((hd s).symm.trans hx)
  exact (hd { s with responses := rs, hist := h }).trans (congrArg _ (d.on_with_responses_hist s rs h))

/-! ## The owner's turn (R169, R60, R190) -/

theorem sentByOwner_append (a b : List ChannelWord) : sentByOwner (a ++ b) = (sentByOwner a && sentByOwner b) :=
  List.all_append

/-- With the block waiting, the step is the owner's. -/
theorem step_of_awaiting {s : State} (hr : s.Ready) (h : s.fetch = .awaiting) : step s = .next s.ownerTurn := by
  rw [step_of_ready hr, State.runCommand, h]

theorem State.Ready.ownerTurn {s : State} (h : s.Ready) : s.ownerTurn.Ready := ⟨h.noReset, h.legal, h.idle⟩

theorem State.SingleOwner.ownerTurn {s : State} (h : s.SingleOwner) : s.ownerTurn.SingleOwner := by
  rw [State.SingleOwner, State.ownerTurn_channel, sentByOwner_append, h, sentByOwner_ownerWords, Bool.and_true]

/-- After a turn in step the channel holds exactly one command, or the owner has sent nothing. -/
theorem State.fetch_ownerTurn_of_inStep {s : State} (ho : s.SingleOwner) (h : s.inStep s.ownerNext = true) :
    s.ownerNext = [] ∨ (∃ i, s.ownerTurn.fetch = .command i s.ownerTurn.channel.length) ∨
      s.ownerTurn.fetch = .illegal s.ownerTurn.channel.length := by
  have hwords : channelWords s.ownerTurn.channel = channelWords s.channel ++ s.ownerNext := by
    simp [State.ownerSends_of_inStep h]
  have hlength : s.ownerTurn.channel.length = s.channel.length + s.ownerNext.length := by
    simp [State.ownerSends_of_inStep h]
  obtain hnone | ⟨i, hdec⟩ | ⟨why, hdec⟩ := (s.inStep_iff s.ownerNext).mp h
  · exact .inl hnone
  · rw [← hwords, ← hlength] at hdec
    exact .inr (.inl ⟨i, State.fetch_of_command hdec (sentByOwner_take ho.ownerTurn _)⟩)
  · rw [← hwords, ← hlength] at hdec
    exact .inr (.inr (State.fetch_of_illegal hdec (sentByOwner_take ho.ownerTurn _)))

/-- Out of step nothing is sent, so the block waits as before and every later step is the same wait. -/
theorem step_ownerTurn_of_outOfStep {s : State} (hr : s.Ready) (hf : s.fetch = .awaiting)
    (h : s.inStep s.ownerNext = false) : step s.ownerTurn = .next s.ownerTurn := by
  have hwaits : s.ownerTurn.fetch = .awaiting := by
    rw [State.ownerTurn_of_outOfStep h]
    exact hf
  rw [step_of_awaiting hr.ownerTurn hwaits, State.ownerTurn_stuck h]

/-- Settles O37: the step is the owner's turn, in step or out of it. -/
theorem blockWaitsForACompleteCommand : Obligations.BlockWaitsForACompleteCommand := by
  intro s hr ho hdec
  have hf : s.fetch = .awaiting := State.fetch_awaiting_iff.mpr ⟨hdec, ho⟩
  exact ⟨s.ownerTurn, step_of_awaiting hr hf, ho.ownerTurn,
    fun h => ⟨State.ownerTurn_of_inStep h, State.fetch_ownerTurn_of_inStep ho h⟩,
    fun h => ⟨State.ownerTurn_of_outOfStep h, step_ownerTurn_of_outOfStep hr hf h⟩⟩

/-! ## Which agent's step changes what (R169) -/

/-- No effect of a command is the owner's: its turns and the responses it has read stay. -/
theorem Effect.owner_eq {i : Instr} {s t : State} (h : Effect i s t) : t.turns = s.turns ∧ t.received = s.received := by
  cases h <;> exact ⟨rfl, rfl⟩

/-- A step between resets is the owner's turn, or it is another agent's and leaves what is the owner's. -/
theorem step_owner {s t : State} (hr : s.resetRequest = none) (h : step s = .next t) :
    (s.tmPhase = .idle ∧ s.fetch = .awaiting ∧ t = s.ownerTurn) ∨
      ((s.tmPhase ≠ .idle ∨ s.fetch ≠ .awaiting) ∧ t.turns = s.turns ∧ t.received = s.received) := by
  obtain ⟨-, ⟨bk, txn, hp, rfl⟩ | ⟨hidle, ⟨i, n, hf, hx⟩ | ⟨n, hf, rfl⟩ | ⟨hf, rfl⟩⟩⟩ := step_cases hr h
  · exact .inr ⟨.inl (by simp [hp]), rfl, rfl⟩
  · exact .inr ⟨.inr (by simp [hf]), (effect_of_exec hx).2.owner_eq⟩
  · exact .inr ⟨.inr (by simp [hf]), rfl, rfl⟩
  · exact .inl ⟨hidle, hf, rfl⟩

theorem step_turns_ne_iff {s t : State} (hr : s.resetRequest = none) (h : step s = .next t) :
    t.turns ≠ s.turns ↔ s.tmPhase = .idle ∧ s.fetch = .awaiting ∧ s.inStep s.ownerNext = true := by
  obtain ⟨hidle, hf, rfl⟩ | ⟨hother, hturns, -⟩ := step_owner hr h
  · simp [hidle, hf]
  · exact iff_of_false (not_not_intro hturns) fun ⟨hidle, hf, _⟩ => hother.elim (absurd hidle) (absurd hf)

/-- What is read at the head of the channel takes at least one word, an illegal encoding too. -/
theorem State.taken_fetch_ne_zero_iff (s : State) :
    s.fetch.taken ≠ 0 ↔ (∃ i n, s.fetch = .command i n) ∨ ∃ n, s.fetch = .illegal n := by
  cases hf : s.fetch with
  | command i n =>
    obtain ⟨w0, tail, op, w1, -, -, -, rfl, -⟩ := decode_command_inv (State.fetch_command_inv hf).1
    exact iff_of_true (Nat.ne_of_gt (op.commandLength_pos s.pageCount w1)) (.inl ⟨i, _, rfl⟩)
  | illegal n =>
    obtain ⟨⟨why, hdec⟩, -⟩ := State.fetch_illegal_inv hf
    obtain ⟨w0, tail, -, -, ⟨-, -, rfl⟩ | ⟨-, op, w1, -, -, rfl, -⟩⟩ := decode_illegal_inv hdec
    · exact iff_of_true Nat.one_ne_zero (.inr ⟨1, rfl⟩)
    · exact iff_of_true (Nat.ne_of_gt (op.commandLength_pos s.pageCount w1)) (.inr ⟨_, rfl⟩)
  | awaiting | foreign => simp [Fetched.taken]

theorem step_pc_ne_iff {s t : State} (hr : s.resetRequest = none) (h : step s = .next t) :
    t.pc ≠ s.pc ↔ s.tmPhase = .idle ∧ ((∃ i n, s.fetch = .command i n) ∨ ∃ n, s.fetch = .illegal n) := by
  rw [← s.taken_fetch_ne_zero_iff]
  obtain ⟨hpending, hpc, -⟩ | ⟨hidle, hpc, -⟩ := step_stream hr h
  · simp [hpending, hpc]
  · simp [hidle, hpc]

theorem step_hist_ne_iff {s t : State} (hr : s.resetRequest = none) (h : step s = .next t) :
    t.hist ≠ s.hist ↔ ∃ bk txn, s.tmPhase = .pending bk txn := by
  cases hp : s.tmPhase with
  | idle => simp [step_hist_of_idle hr hp h]
  | pending bk txn => simp [step_eq_backingReturns hr hp h]

/-- Settles O54: agent by agent; what the owner alone changes, and does not send, is read off `step_owner`. -/
theorem agentsStepWhenTheyFire : Obligations.AgentsStepWhenTheyFire := by
  intro s t hr h
  refine ⟨step_turns_ne_iff hr h, ?received, step_pc_ne_iff hr h, step_hist_ne_iff hr h, ?responses⟩
  case received =>
    obtain ⟨hidle, hf, rfl⟩ | ⟨-, -, hreceived⟩ := step_owner hr h
    · exact fun _ => ⟨hidle, hf, s.ownerTurn_received⟩
    · exact fun hne => absurd hreceived hne
  case responses =>
    obtain ⟨-, -, rfl⟩ | ⟨hother, -⟩ := step_owner hr h
    · exact fun hne => absurd s.ownerTurn_responses hne
    · exact fun _ => hother

end Sys2Proof.Machine
end

section
/-! PROOFS. The statements about reset and hazards (spec/70_reset_and_hazards.md): what construction refuses, what a
repeated reset leaves, what stays between resets, and what a snapshot of another size does to the stream. -/

namespace Sys2Proof

/-! ## An FB_SET_BUFFER on the stream (R61, R190) -/

/-- The header of an FB_SET_BUFFER asks for `pages * 32` words of payload, however many were meant. -/
theorem decode_fbSetBuffer_header (pages : Nat) (tail : List Word) :
    decode pages (formatG 0x7 :: tail) =
      if tail.length < pages * 32 then .incomplete
      else .command (.fbSetBuffer (unpackBytes (pages * 128) tail)) (1 + pages * 32) := by
  have hop : opcodeOf (formatG 0x7) = some .fbSetBuffer := opcodeOf_of_number (formatG_op _)
  have hlen : tail.length + 1 < Opcode.fbSetBuffer.commandLength pages 0 ↔ tail.length < pages * 32 := by
    rw [commandLength_fbSetBuffer]; omega
  rw [decode_known hop rfl, decodeWith, if_congr hlen rfl rfl, commandLength_fbSetBuffer]
  rfl

/-- A snapshot of `p` pages is packed into `p * 32` words. -/
theorem length_packBytes_pages {d : List Byte} {p : Nat} (hd : d.length = p * 128) : (packBytes d).length = p * 32 := by
  rw [length_packBytes, hd, ceil4]; omega

end Sys2Proof

namespace Sys2Proof.Machine

/-! ## Between resets (R182) -/

/-- Only a command of the framebuffer ports stores. -/
theorem Effect.writesFb_of_fb_ne {i : Instr} {s t : State} (h : Effect i s t) (hne : t.fb ≠ s.fb) :
    i.writesFb = true := by
  cases h with
  | answered r => exact absurd (State.answer_fb s r) hne
  | stored fb hi => exact hi
  | emitted txn => exact absurd (State.setPhase_fb s _) hne

/-- Settles O42: of the agents' steps between resets only an executed command's touches `FB`. -/
theorem lifetimeOfConfigAndStorage : Obligations.LifetimeOfConfigAndStorage := by
  intro s t hr h
  have hcfg : t.cfg = s.cfg := step_cfg hr h
  refine ⟨hcfg, by simp only [State.fbSize_eq, State.pageCount, hcfg], fun hne => ?_⟩
  obtain ⟨-, ⟨bk, txn, -, rfl⟩ | ⟨-, ⟨i, n, hf, hx⟩ | ⟨n, -, rfl⟩ | ⟨-, rfl⟩⟩⟩ := step_cases hr h
  · exact absurd rfl hne
  · exact ⟨i, n, hf, (effect_of_exec hx).2.writesFb_of_fb_ne (by rwa [State.consume_fb])⟩
  · exact absurd rfl hne
  · exact absurd s.ownerTurn_fb hne

/-! ## Illegal constructions (R181) -/

/-- The arguments that registers were sampled from. -/
def ConfigRegs.arguments (c : ConfigRegs) : ConstructionArgs :=
  { width         := c.width.toNat
    height        := c.height.toNat
    transportKind := if c.transportKind = .addressed then 0 else 1
    flip          := c.flip.toNat }

theorem ConfigRegs.legal_iff {c : ConfigRegs} :
    c.legal = true ↔ (1 ≤ c.width.toNat ∧ c.width.toNat ≤ 128) ∧
      (c.height.toNat % 8 = 0 ∧ 8 ≤ c.height.toNat ∧ c.height.toNat ≤ 2048) ∧
      c.pages.toNat = c.height.toNat / 8 := by
  simp only [legal, Bool.and_eq_true, decide_eq_true_eq, and_assoc]

theorem ConfigRegs.legal_arguments {c : ConfigRegs} (h : c.legal = true) : c.arguments.legal = true := by
  obtain ⟨hwidth, hheight, -⟩ := ConfigRegs.legal_iff.mp h
  have hkind : c.arguments.transportKind ≤ 1 := by
    simp only [arguments]
    split <;> decide
  exact ConstructionArgs.legal_iff.mpr ⟨hheight, hwidth, hkind, c.flip.toNat_le⟩

/-- Legal registers are sampled back from their arguments. -/
theorem ConfigRegs.sampled_arguments {c : ConfigRegs} (h : c.legal = true) : sampled c.arguments = c := by
  obtain ⟨-, -, hpages⟩ := ConfigRegs.legal_iff.mp h
  obtain ⟨width, height, pages, kind, flip⟩ := c
  have hp : BitVec.ofNat 9 (height.toNat / 8) = pages := by
    rw [← hpages, BitVec.ofNat_toNat, BitVec.setWidth_eq]
  cases kind <;> cases flip <;> simp [sampled, arguments, hp]

/-- A state whose registers are not legal is given no step. -/
theorem step_of_illegal_cfg {s : State} (hr : s.resetRequest = none) (hl : s.cfg.legal = false) :
    step s = .refused .illegalConstruction := by
  simp [step, hr, hl]

/-- Settles O46: the arguments are not legal; and registers that are legal would be sampled from their arguments. -/
theorem illegalConstructionIsRefused : Obligations.IllegalConstructionIsRefused := by
  refine ⟨fun a hargs => construct_of_illegal (Bool.eq_false_iff.mpr fun hlegal => hargs ?arguments),
    fun s hr hnone => step_of_illegal_cfg hr (Bool.eq_false_iff.mpr fun hlegal => ?registers)⟩
  case arguments =>
    obtain ⟨⟨hmod, hmin, hmax⟩, ⟨hwmin, hwmax⟩, hkind, hflip⟩ := ConstructionArgs.legal_iff.mp hlegal
    exact ⟨hmod, hmin, hmax, hwmin, hwmax, hkind, hflip⟩
  case registers =>
    exact hnone s.cfg.arguments _ (construct_of_legal (ConfigRegs.legal_arguments hlegal))
      (ConfigRegs.sampled_arguments hlegal)

/-! ## A reset applied again (R180) -/

theorem legal_of_construct {a : ConstructionArgs} {t : State} (h : construct a = .next t) : a.legal = true := by
  cases hlegal : a.legal
  · rw [construct_of_illegal hlegal] at h; cases h
  · rfl

/-- Nothing is known of the panel right after a construction. -/
theorem PanelByte.before_ne_known (earlier : List PastEntry) (b : Byte) : PanelByte.before earlier ≠ .known b := by
  rw [PanelByte.before]
  split <;> simp

/-- Settles O47: the step is the construction, over the words, counts and record that lie outside the block. -/
theorem repeatedResetDropsThePendingTransaction : Obligations.RepeatedResetDropsThePendingTransaction := by
  intro s c a hr hc
  obtain rfl := construct_eq_next hc
  have hstep := (step_of_request hr).trans (State.reconstruct_of_legal s (legal_of_construct hc))
  exact ⟨_, hstep, rfl, rfl, rfl, rfl, rfl, rfl, rfl, rfl, rfl, rfl, rfl, rfl,
    fun n b => (State.panelByte_of_idle rfl n).trans_ne (PanelByte.before_ne_known s.handedOver b)⟩

/-! ## A snapshot of another size (R190) -/

theorem ownerWords_inj {a b : List Word} : ownerWords a = ownerWords b ↔ a = b :=
  ⟨fun h => by simpa only [channelWords_ownerWords] using congrArg channelWords h, congrArg ownerWords⟩

/-- Words that are a snapshot are in step only where it has the buffer's own size. -/
theorem State.inStep_snapshot_iff {s : State} {d : List Byte} {p : Nat} (hch : s.channel = [])
    (hd : d.length = p * 128) : s.inStep (encode (.fbSetBuffer d)) = true ↔ p = s.pageCount := by
  have hlen := length_packBytes_pages hd
  have hwords : channelWords s.channel ++ encode (.fbSetBuffer d) = formatG 0x7 :: packBytes d := by rw [hch]; rfl
  rw [State.inStep_iff, hwords, decode_fbSetBuffer_header, hlen]
  by_cases hshort : p * 32 < s.pageCount * 32
  · rw [if_pos hshort]
    exact iff_of_false (by simp [encode]) (by omega)
  · have hlengths : 1 + s.pageCount * 32 = p * 32 + 1 ↔ p = s.pageCount := by omega
    rw [if_neg hshort]
    simp [encode, hch, hlen, hlengths]

section Snapshot

variable {s : State} {d : List Byte} {rest : List Word} (hr : s.Ready)
  (hch : s.channel = ownerWords (encode (.fbSetBuffer d) ++ rest))
include hch

/-- With too few words the block waits. -/
theorem State.fetch_snapshot_of_short (hshort : (packBytes d ++ rest).length < s.pageCount * 32) :
    s.fetch = .awaiting := by
  rw [State.fetch_awaiting_iff, State.SingleOwner, hch, channelWords_ownerWords]
  exact ⟨(decode_fbSetBuffer_header s.pageCount (packBytes d ++ rest)).trans (if_pos hshort), sentByOwner_ownerWords _⟩

/-- With enough words the block reads a snapshot of its own size. -/
theorem State.fetch_snapshot_of_enough (henough : s.pageCount * 32 ≤ (packBytes d ++ rest).length) :
    s.fetch = .command (.fbSetBuffer (unpackBytes (s.pageCount * 128) (packBytes d ++ rest)))
      (1 + s.pageCount * 32) := by
  refine State.fetch_of_command ?_ (sentByOwner_take (by rw [hch]; exact sentByOwner_ownerWords _) _)
  rw [hch, channelWords_ownerWords]
  exact (decode_fbSetBuffer_header s.pageCount (packBytes d ++ rest)).trans (if_neg henough.not_gt)

include hr

/-- And stores it, taking as many words off the channel as its own size says. -/
theorem step_snapshot_of_enough (henough : s.pageCount * 32 ≤ (packBytes d ++ rest).length) :
    ∃ t, step s = .next t ∧ t.pc = s.pc + (1 + s.pageCount * 32) ∧
      t.channel = ownerWords ((packBytes d ++ rest).drop (s.pageCount * 32)) ∧
      t.responses = s.responses ++ [⟨.ok, false, []⟩] := by
  have hpayload : (unpackBytes (s.pageCount * 128) (packBytes d ++ rest)).length = s.fbSize :=
    length_unpackBytes (by rw [ceil4]; omega)
  have hchannel : (s.consume (1 + s.pageCount * 32)).channel =
      ownerWords ((packBytes d ++ rest).drop (s.pageCount * 32)) := by
    rw [State.consume_channel, hch, ownerWords, ownerWords, ← List.map_drop, Nat.add_comm 1]
    rfl
  exact ⟨_, (step_of_command hr (State.fetch_snapshot_of_enough hch henough)).trans
    (execFbSetBuffer_of_length hpayload), rfl, hchannel, rfl⟩

end Snapshot

/-- Settles O55: the header asks for `cfg.PAGES * 32` words, which are the snapshot's only where `p` is
`cfg.PAGES`. -/
theorem snapshotOfAnotherSizeIsOutOfStep : Obligations.SnapshotOfAnotherSizeIsOutOfStep := by
  intro s p d rest hr hd
  have hlen := length_packBytes_pages hd
  have htail : (packBytes d ++ rest).length = p * 32 + rest.length := by rw [List.length_append, hlen]
  refine ⟨length_encode (beq_iff_eq.mpr hd), fun hch => State.inStep_snapshot_iff hch hd,
    fun hch => ⟨fun hshort => ?short, fun henough => ?enough⟩⟩
  case short => exact State.fetch_snapshot_of_short hch (htail ▸ hshort)
  case enough =>
    obtain ⟨t, hstep, hpc, hchannel, hresponses⟩ := step_snapshot_of_enough hr hch (htail ▸ henough)
    refine ⟨t, hstep, hpc, hchannel, hresponses, ?_⟩
    rw [hchannel, ownerWords_inj]
    constructor
    · intro hrest
      have hlengths := congrArg List.length hrest
      rw [List.length_drop, htail, State.pageCount] at hlengths
      omega
    · intro hp
      exact List.drop_left' (by rw [hlen, hp]; rfl)

end Sys2Proof.Machine
end

section
/-! PROOFS. The two directions of the encoding and the places of its bytes (spec/30_encoding.md). -/

namespace Sys2Proof

/-! ## Payload bytes in their words (R63) -/

theorem getD_flatMap_wordBytes (ws : List Word) (k : Nat) :
    (ws.flatMap wordBytes).getD k 0 = (ws.getD (k / 4) 0).extractLsb' (8 * (k % 4)) 8 := by
  rw [← extract_packBytes, packBytes_flatMap_wordBytes]

/-- Byte `k` that is read is the byte in R63's place, whatever fills the last word. -/
theorem getElem_unpackBytes {n k : Nat} {ws : List Word} (h : k < (unpackBytes n ws).length) :
    (unpackBytes n ws)[k] = (ws.getD (k / 4) 0).extractLsb' (8 * (k % 4)) 8 := by
  have hk : k < n := h.trans_le (List.length_take_le _ _)
  have hword : k / 4 < ceil4 n := by rw [ceil4]; omega
  calc (unpackBytes n ws)[k]
      = ((ws.take (ceil4 n)).flatMap wordBytes).getD k 0 := by
        rw [List.getD_eq_getElem _ _ (h.trans_le (List.length_take_le' _ _))]
        exact List.getElem_take
    _ = ((ws.take (ceil4 n)).getD (k / 4) 0).extractLsb' (8 * (k % 4)) 8 := getD_flatMap_wordBytes _ k
    _ = (ws.getD (k / 4) 0).extractLsb' (8 * (k % 4)) 8 := by
        rw [List.getD_eq_getElem?_getD, List.getElem?_take_of_lt hword, ← List.getD_eq_getElem?_getD]

/-- Words that are full of bytes are the packing of the bytes they carry. -/
theorem packBytes_unpackBytes {n : Nat} {ws : List Word} (hfull : n % 4 = 0) (h : ceil4 n ≤ ws.length) :
    packBytes (unpackBytes n ws) = ws.take (ceil4 n) := by
  have hall : unpackBytes n ws = (ws.take (ceil4 n)).flatMap wordBytes := by
    refine List.take_of_length_le ?_
    rw [length_flatMap_wordBytes, List.length_take_of_le h, ceil4]
    omega
  rw [hall, packBytes_flatMap_wordBytes]

/-- Settles O5: every byte of a packed list is in R63's place, a zero byte past its end, and is read from there. -/
theorem bytesArePackedLeastSignificantFirst : Obligations.BytesArePackedLeastSignificantFirst := by
  intro d
  refine ⟨length_packBytes d, fun k hk => ?byte, fun k hk _ => ?padding, fun ws hlen hbytes => ?receipt⟩
  case byte => rw [extract_packBytes, List.getD_eq_getElem _ _ hk]
  case padding => rw [extract_packBytes, List.getD_eq_default _ _ hk]
  case receipt =>
    refine List.ext_getElem (length_unpackBytes hlen.ge) fun k hk hk' => ?_
    rw [getElem_unpackBytes, hbytes k hk']

/-! ## Decoding what was encoded -/

/-- A first header word of a known operation with no reserved bit, its second one where there is one, and a packed
payload of the length they give, are decoded to the command of these fields, whatever words follow. -/
theorem decode_headers_packBytes {pages : Nat} {op : Opcode} {i : Instr} {w0 w1 : Word} {second : List Word}
    {d : List Byte} {rest : List Word} (hnum : w0.extractLsb' 28 4 = op.number) (hw0 : w0 &&& op.reservedMask = 0)
    (hheaders : second.length + 1 = op.headerWords) (h1 : secondHeader op (second ++ (packBytes d ++ rest)) = some w1)
    (hw1 : w1 &&& op.secondReservedMask = 0) (hd : d.length = op.payloadBytes pages w1)
    (hi : assemble op w0 w1 d = i) :
    decode pages (w0 :: (second ++ (packBytes d ++ rest))) = .command i (i.lengthWords pages) := by
  have hlen : op.commandLength pages w1 ≤ (second ++ (packBytes d ++ rest)).length + 1 := by
    rw [Opcode.commandLength, ← hd, ← hheaders, List.length_append, List.length_append, length_packBytes]
    omega
  have hpayload : unpackBytes (op.payloadBytes pages w1) ((second ++ (packBytes d ++ rest)).drop (op.headerWords - 1)) =
      d := by
    rw [← hheaders, Nat.add_sub_cancel, List.drop_left, ← hd, unpackBytes_packBytes]
  rw [decode_of_complete (opcodeOf_of_number hnum) h1 hlen (hasReservedBit_eq_false_iff.mpr ⟨hw0, hw1⟩), hpayload, hi,
    ← hi, Instr.lengthWords_assemble]

/-- An encoded command is decoded to itself, at its length: its header words hold its fields. -/
theorem decode_encode {pages : Nat} {i : Instr} (rest : List Word) (hwf : i.wf pages = true) :
    decode pages (encode i ++ rest) = .command i (i.lengthWords pages) := by
  cases i with
  | fbGetPage page =>
    exact decode_headers_packBytes (op := .fbGetPage) (second := []) (d := []) (formatP_op _ _)
      (formatP_reserved _ _) rfl rfl rfl rfl (by rw [assemble, formatP_page])
  | fbSetPage page d =>
    exact decode_headers_packBytes (op := .fbSetPage) (second := []) (formatP_op _ _)
      (formatP_reserved _ _) rfl rfl rfl (beq_iff_eq.mp hwf) (by rw [assemble, formatP_page])
  | fbGetPixel x y inv =>
    exact decode_headers_packBytes (op := .fbGetPixel) (second := []) (d := []) (formatX_op _ _ _ _ _)
      (formatX_reserved_get _ _ _ _) rfl rfl rfl rfl (by rw [assemble, formatX_x, formatX_y, formatX_inv])
  | fbSetPixel x y val inv =>
    exact decode_headers_packBytes (op := .fbSetPixel) (second := []) (d := []) (formatX_op _ _ _ _ _)
      (formatX_reserved _ _ _ _ _) rfl rfl rfl rfl (by rw [assemble, formatX_x, formatX_y, formatX_val, formatX_inv])
  | fbBlit xpos ypos width height inv d =>
    have hd : d.length = Opcode.fbBlit.payloadBytes pages (formatB1 height width) := by
      rw [Opcode.payloadBytes, formatB1_width, formatB1_height, beq_iff_eq.mp hwf]
    exact decode_headers_packBytes (op := .fbBlit) (second := [formatB1 height width]) (formatB0_op _ _ _ _)
      (formatB0_reserved _ _ _ _) rfl rfl (formatB1_reserved _ _) hd
      (by rw [assemble, formatB0_xpos, formatB0_ypos, formatB1_width, formatB1_height, formatB0_inv])
  | fbGetBuffer =>
    exact decode_headers_packBytes (op := .fbGetBuffer) (second := []) (d := []) (formatG_op _)
      (formatG_reserved _) rfl rfl rfl rfl rfl
  | fbSetBuffer d =>
    exact decode_headers_packBytes (op := .fbSetBuffer) (second := []) (formatG_op _)
      (formatG_reserved _) rfl rfl rfl (beq_iff_eq.mp hwf) rfl
  | tmPush page col count =>
    exact decode_headers_packBytes (op := .tmPush) (second := []) (d := []) (formatT_op _ _ _ _)
      (formatT_reserved _ _ _ _) rfl rfl rfl rfl (by rw [assemble, formatT_page, formatT_col, formatT_count])
  | tmSetContrast level =>
    exact decode_headers_packBytes (op := .tmSetContrast) (second := []) (d := []) (formatC_op _ _)
      (formatC_reserved _ _) rfl rfl rfl rfl (by rw [assemble, formatC_arg])
  | tmSetScrollMode selector =>
    exact decode_headers_packBytes (op := .tmSetScrollMode) (second := []) (d := []) (formatC_op _ _)
      (formatC_reserved _ _) rfl rfl rfl rfl (by rw [assemble, formatC_arg])

/-- Settles O2: `decode_encode`, format by format. -/
theorem decodeOfEncodeIsTheCommand : Obligations.DecodeOfEncodeIsTheCommand :=
  fun _ _ rest hwf => decode_encode rest hwf

/-! ## Encoding what was decoded -/

/-- The payload of a command is what is read behind its headers; an operation without payload reads no byte. -/
theorem payload_assemble (pages : Nat) (op : Opcode) (w0 w1 : Word) (ws : List Word) :
    (assemble op w0 w1 (unpackBytes (op.payloadBytes pages w1) ws)).payload =
      unpackBytes (op.payloadBytes pages w1) ws := by
  cases op <;> simp [assemble, Instr.payload, Opcode.payloadBytes, unpackBytes]

/-- What the words of a decoded command are: its headers, as encoding gives them again, and its payload behind them. -/
theorem words_of_decode {pages : Nat} {ws : List Word} {i : Instr} {n : Nat} (h : decode pages ws = .command i n) :
    ∃ headers, n = headers + ceil4 i.payload.length ∧ n ≤ ws.length ∧
      i.payload = unpackBytes i.payload.length (ws.drop headers) ∧
      encode i = ws.take headers ++ packBytes i.payload := by
  obtain ⟨w0, tail, op, w1, rfl, hop, h1, hn, hlen, hres, rfl⟩ := decode_command_inv h
  have hheaders : (w0 :: tail).drop op.headerWords = tail.drop (op.headerWords - 1) := by
    cases op <;> rfl
  have henough : ceil4 (op.payloadBytes pages w1) ≤ (tail.drop (op.headerWords - 1)).length := by
    rw [← hheaders, List.length_drop]
    rw [Opcode.commandLength] at hn
    omega
  refine ⟨op.headerWords, ?_⟩
  rw [payload_assemble, length_unpackBytes henough, hheaders]
  exact ⟨hn, hlen, rfl, encode_assemble hop h1 (hn ▸ hlen) hres⟩

/-- Settles O3: the headers are encoded again as they were read, the payload as far as its bytes fill the words. -/
theorem decodedWordsAreTheEncoding : Obligations.DecodedWordsAreTheEncoding := by
  intro pages ws i n h
  have hwf := Machine.wf_of_decode h
  have hn : n = i.lengthWords pages := by
    obtain ⟨w0, tail, op, w1, -, -, -, hn, -, -, rfl⟩ := decode_command_inv h
    rw [hn, Instr.lengthWords_assemble]
  obtain ⟨headers, hsplit, hle, hpayload, hencode⟩ := words_of_decode h
  have hheaders : n - ceil4 i.payload.length = headers := by omega
  have hlen : (ws.take headers).length = headers := List.length_take_of_le (by omega)
  rw [hheaders]
  refine ⟨hwf, hn, hle, hn ▸ length_encode hwf, ?headers, fun k hk => ?byte, fun hfull => ?whole⟩
  case headers => rw [hencode, List.take_left' hlen]
  case byte =>
    rw [← getElem_unpackBytes (hpayload ▸ hk)]
    exact List.getElem_of_eq hpayload.symm _
  case whole =>
    rw [hencode, hpayload, packBytes_unpackBytes hfull (by rw [List.length_drop]; omega), hsplit, List.take_add]

/-! ## Words written out from the tables (R65 to R71) -/

/-- Settles O1: the decoder evaluated on each. -/
theorem handWrittenWordsDecode : Obligations.HandWrittenWordsDecode := by
  unfold Obligations.HandWrittenWordsDecode
  decide

end Sys2Proof

namespace Sys2Proof.Machine

/-! ## The status word (R64) -/

theorem Response.extractLsb'_statusWord_status (r : Response) : r.statusWord.extractLsb' 0 2 = r.status.code := by
  simp (disch := omega) only [statusWord, BitVec.extractLsb'_append_eq_of_add_le, BitVec.extractLsb'_eq_self]

theorem Response.getLsbD_statusWord_pix (r : Response) : r.statusWord.getLsbD 2 = r.pix := by
  simp only [statusWord, BitVec.getLsbD_append]
  simp

theorem Response.extractLsb'_statusWord_zero (r : Response) : r.statusWord.extractLsb' 3 29 = 0 := by
  simp (disch := omega) only [statusWord, BitVec.extractLsb'_append_eq_of_le]
  exact BitVec.extractLsb'_zero

/-- Settles O6: the fields of the concatenation that is the status word. -/
theorem responseWordLayout : Obligations.ResponseWordLayout := by
  intro r
  refine ⟨rfl, ?status, r.getLsbD_statusWord_pix, r.extractLsb'_statusWord_zero⟩
  case status =>
    rw [r.extractLsb'_statusWord_status]
    cases r.status <;> rfl

end Sys2Proof.Machine
end

section
/-! PROOFS. Commands at large: the frame of every one, which values stop (spec/60_exceptions.md R160, R175), that reads
have no side effect, and what one port sees of another's write (spec/20_memory.md R44, R48). -/

namespace Sys2Proof.Machine

/-! ## The frame of a command -/

/-- No effect of a command touches the draws, the record of earlier instances or the input for a construction. -/
theorem Effect.outside_eq {i : Instr} {s t : State} (h : Effect i s t) :
    t.draws = s.draws ∧ t.resetRequest = s.resetRequest ∧ t.earlier = s.earlier := by
  cases h <;> exact ⟨rfl, rfl, rfl⟩

/-- At most one response is sent: an answer and a store send one, a transaction handed over none yet. -/
theorem Effect.responses_cases {i : Instr} {s t : State} (h : Effect i s t) :
    t.responses = s.responses ∨ ∃ r, t.responses = s.responses ++ [r] := by
  cases h with
  | answered r => exact .inr ⟨r, State.answer_responses s r⟩
  | stored fb => exact .inr ⟨_, State.answer_responses (s.setFb fb) _⟩
  | emitted txn => exact .inl (State.setPhase_responses s _)

/-- Settles O32: field by field, what the three effects leave alone. -/
theorem frameOfEveryCommand : Obligations.FrameOfEveryCommand := by
  intro i s t h
  obtain ⟨-, heffect⟩ := effect_of_exec h
  obtain ⟨hpc, hchannel⟩ := heffect.stream_eq
  obtain ⟨hturns, hreceived⟩ := heffect.owner_eq
  obtain ⟨hdraws, hreset, hearlier⟩ := heffect.outside_eq
  refine ⟨heffect.cfg_eq, hpc, hchannel, heffect.hist_eq, hdraws, hreset, hreceived, hturns, hearlier, fun hi => ?fb,
    heffect.responses_cases⟩
  case fb =>
    by_contra hne
    rw [heffect.writesFb_of_fb_ne hne] at hi
    cases hi

/-! ## When a command stops -/

theorem exec_ne_addressOutOfRange (i : Instr) (s : State) : exec i s ≠ .fault .addressOutOfRange := by
  cases hwf : i.wf s.pageCount
  · rw [exec_of_not_wf hwf]; simp
  · obtain ⟨t, ht, -⟩ := exec_effect hwf
    rw [ht]; simp

/-- Settles O33: a well-formed command has an effect, any other stops on its payload's length. -/
theorem commandsStopOnlyWhenIllFormed : Obligations.CommandsStopOnlyWhenIllFormed :=
  ⟨fun _ _ hwf => (exec_effect hwf).imp fun _ h => h.1, fun _ _ h => exec_of_not_wf h, exec_ne_addressOutOfRange,
    fun _ _ _ _ h => wf_of_decode h⟩

/-! ## Reads (R48) -/

/-- A read of a port answers from `cfg` and `FB`, and sends the same response whatever has been sent before. -/
theorem read_answers {i : Instr} (s : State)
    (hi : (∃ page, i = .fbGetPage page) ∨ (∃ x y inv, i = .fbGetPixel x y inv) ∨ i = .fbGetBuffer) :
    ∃ r, ∀ rs, exec i { s with responses := rs } = .next { s with responses := rs ++ [r] } := by
  obtain ⟨page, rfl⟩ | ⟨x, y, inv, rfl⟩ | rfl := hi
  · cases h : s.pageInBounds page
    · exact ⟨⟨.ok, false, List.replicate 128 0⟩, fun _ => execFbGetPage_of_out h⟩
    · exact ⟨⟨.ok, false, s.fb.readBytes (pageAddress page) 128⟩, fun _ => execFbGetPage_of_in h⟩
  · cases h : s.pixelInBounds x.toNat y.toNat
    · exact ⟨⟨.ok, false, []⟩, fun _ => execFbGetPixel_of_out inv h⟩
    · exact ⟨⟨.ok, pixRead s.cfg.flip s.fb x.toNat y.toNat ^^ inv, []⟩, fun _ => execFbGetPixel_of_in inv h⟩
  · exact ⟨⟨.ok, false, s.fb.readBytes 0 s.fbSize⟩, fun rs => execFbGetBuffer_eq { s with responses := rs }⟩

/-- Settles O23: the second read is the first one over a longer record of responses. -/
theorem readsHaveNoSideEffect : Obligations.ReadsHaveNoSideEffect := by
  intro i s hi
  obtain ⟨r, hr⟩ := read_answers s hi
  refine ⟨r, hr s.responses, (hr _).trans ?_⟩
  rw [List.append_assoc]
  rfl

/-! ## A write seen by a later read (R44, R104, R112, R113) -/

/-- Settles O21: the pixel's bit is a bit of the page's byte that was written, at the row that `pixbit` gives. -/
theorem pageWriteIsSeenByThePixelPort : Obligations.PageWriteIsSeenByThePixelPort := by
  intro s page d c r hd hwf hpage hc hr
  refine ⟨_, execFbSetPage_of_in hd (State.pageInBounds_iff.mpr hpage), ?_⟩
  have hbyte : (s.fb.writeBytes (pageAddress page) d).read (page.toNat * 128 + c) = d.getD c 0 := by
    rw [List.getD_eq_getElem _ _ (hd.symm ▸ hc), ← Memory.read_writeBytes_same hwf]
    rfl
  have hget := execFbGetPixel_pageRow (s := (s.setFb (s.fb.writeBytes (pageAddress page) d)).respond []) hpage hc
    (pixbit_lt s.cfg.flip hr)
  simp only [State.respond_eq_answer, State.answer_cfg, State.setFb_cfg, State.answer_fb, State.setFb_fb,
    pixbit_pixbit s.cfg.flip hr, hbyte] at hget
  exact hget

theorem execFbGetPixel_of_pixRead {s : State} {x y : Coord} (inv : Bool) {v : Bool}
    (hin : s.pixelInBounds x.toNat y.toNat = true) (hv : pixRead s.cfg.flip s.fb x.toNat y.toNat = v) :
    execFbGetPixel x y inv s = .next (s.answer ⟨.ok, v ^^ inv, []⟩) := by
  rw [execFbGetPixel_of_in inv hin, hv]

/-- Settles O22: `pixRead_pixWrite` for the pixel written and for every other. -/
theorem pixelRoundTripAtThePorts : Obligations.PixelRoundTripAtThePorts := by
  intro s x y x' y' val inv inv' hwf hx hy hx' hy'
  have hin := State.pixelInBounds_iff.mpr ⟨hx, hy⟩
  have hin' := State.pixelInBounds_iff.mpr ⟨hx', hy'⟩
  refine ⟨_, execFbSetPixel_of_in val inv hin, ?same, fun hne => ?other⟩
  case same => exact execFbGetPixel_of_pixRead inv' hin (pixRead_pixWrite_same _ hwf hx _ _)
  case other =>
    have hkept : ¬ (x'.toNat = x.toNat ∧ y'.toNat = y.toNat) := by
      rintro ⟨hcol, hrow⟩
      exact hne (Prod.ext (BitVec.eq_of_toNat_eq hcol) (BitVec.eq_of_toNat_eq hrow))
    have hread : pixRead s.cfg.flip (pixWrite s.cfg.flip s.fb x.toNat y.toNat (val ^^ inv)) x'.toNat y'.toNat =
        pixRead s.cfg.flip s.fb x'.toNat y'.toNat := by
      rw [pixRead_pixWrite _ _ _ hwf hx hx', if_neg hkept]
    exact ⟨_, _, _, execFbGetPixel_of_pixRead inv' hin' hread, rfl, execFbGetPixel_of_pixRead inv' hin' rfl, rfl⟩

end Sys2Proof.Machine
end

section
/-! PROOFS. Who answers what (spec/60_exceptions.md R160, R164, R165, R168), and that every command is answered
(spec/30_encoding.md R60). -/

namespace Sys2Proof.Machine

/-! ## The block's reading (R168) -/

theorem step_of_foreign {s : State} (hr : s.Ready) (h : s.fetch = .foreign) : step s = .fault .concurrentOwner := by
  rw [step_of_ready hr, State.runCommand, h]

/-- Settles O40: whatever the decoder answers, a foreign word among those it rests on is what is fetched. -/
theorem secondOwnerIsAFault : Obligations.SecondOwnerIsAFault := by
  intro s hr
  refine ⟨fun i n hdec ho => ?_, fun why n hdec ho => ?_, fun hdec ho => ?_⟩ <;>
    exact step_of_foreign hr (by simp [State.fetch, hdec, ho])

/-- An encoded command at the head of the channel is fetched, at its length. -/
theorem State.fetch_encode {s : State} {i : Instr} {rest : List ChannelWord} (hwf : i.wf s.pageCount = true)
    (hch : s.channel = ownerWords (encode i) ++ rest) : s.fetch = .command i (i.lengthWords s.pageCount) := by
  have hlen : (ownerWords (encode i)).length = i.lengthWords s.pageCount := by
    rw [length_ownerWords, length_encode hwf]
  refine State.fetch_of_command ?_ ?_
  · rw [hch, channelWords_append, channelWords_ownerWords]
    exact decode_encode _ hwf
  · rw [hch, List.take_left' hlen]
    exact sentByOwner_ownerWords _

/-- Its words taken, what stood behind it is left. -/
theorem State.consume_encode {s : State} {i : Instr} {rest : List ChannelWord} (hwf : i.wf s.pageCount = true)
    (hch : s.channel = ownerWords (encode i) ++ rest) :
    s.consume (i.lengthWords s.pageCount) = { s with channel := rest, pc := s.pc + i.lengthWords s.pageCount } := by
  have hlen : (ownerWords (encode i)).length = i.lengthWords s.pageCount := by
    rw [length_ownerWords, length_encode hwf]
  rw [State.consume, hch, List.drop_left' hlen]

/-- Settles O35: the words that decode to a command are fetched; an encoded command's words decode to it. -/
theorem stepRunsTheDecodedCommand : Obligations.StepRunsTheDecodedCommand := by
  refine ⟨fun s i n hr hdec ho => step_of_command hr (State.fetch_of_command hdec ho), fun s i rest hr hwf hch => ?_⟩
  rw [step_of_command hr (State.fetch_encode hwf hch), State.consume_encode hwf hch]

/-! ## Every command is answered (R60, R175) -/

theorem State.Ready.answer {s : State} (h : s.Ready) (r : Response) : (s.answer r).Ready :=
  ⟨h.noReset, h.legal, h.idle⟩

theorem State.Ready.setFb {s : State} (h : s.Ready) (fb : Memory) : (s.setFb fb).Ready := ⟨h.noReset, h.legal, h.idle⟩

theorem State.Ready.complete {s : State} (h : s.Ready) (bk : Backing) (txn : Transaction) (o : TxnOutcome) :
    ((s.setPhase (.pending bk txn)).complete bk txn o).Ready := ⟨h.noReset, h.legal, rfl⟩

/-- A command that runs is answered at once, or by the backing in the step after. -/
theorem Effect.answered_within_two {i : Instr} {s t : State} (hr : s.Ready) (h : Effect i s t) :
    ∃ u r, (t = u ∨ t.responses = s.responses ∧ step t = .next u) ∧ u.responses = s.responses ++ [r] ∧ u.Ready ∧
      u.channel = s.channel ∧ u.pc = s.pc := by
  cases h with
  | answered r => exact ⟨_, r, .inl rfl, rfl, hr.answer r, rfl, rfl⟩
  | stored fb => exact ⟨_, _, .inl rfl, rfl, (hr.setFb fb).answer _, rfl, rfl⟩
  | emitted txn =>
    exact ⟨_, _, .inr ⟨rfl, step_setPhase_pending hr.noReset hr.legal⟩, rfl, hr.complete _ txn _, rfl, rfl⟩

/-- Settles O51: the command is read and runs, and its effect is answered. -/
theorem everyCommandIsAnswered : Obligations.EveryCommandIsAnswered := by
  intro s i rest hr hwf hch
  have hready : State.Ready { s with channel := rest, pc := s.pc + i.lengthWords s.pageCount } :=
    ⟨hr.noReset, hr.legal, hr.idle⟩
  have hstep := step_of_command hr (State.fetch_encode hwf hch)
  rw [State.consume_encode hwf hch] at hstep
  obtain ⟨t, hexec, heffect⟩ :=
    exec_effect (s := { s with channel := rest, pc := s.pc + i.lengthWords s.pageCount }) hwf
  rw [hexec] at hstep
  obtain ⟨u, r, rfl | ⟨hsilent, hreply⟩, hu⟩ := heffect.answered_within_two hready
  · exact ⟨t, r, .inl hstep, hu⟩
  · exact ⟨u, r, .inr ⟨t, hstep, hsilent, hreply⟩, hu⟩

/-! ## The causes of the statuses (R160, R164) -/

/-- The status a command answers by itself: EPRECOND for a blit whose width is no multiple of 8, else OK. -/
def commandStatus : Instr → Status
  | .fbBlit _ _ width _ _ _ => if width.toNat % 8 = 0 then .ok else .eprecond
  | .fbGetPage _ | .fbSetPage _ _ | .fbGetPixel _ _ _ | .fbSetPixel _ _ _ _ | .fbGetBuffer | .fbSetBuffer _ => .ok
  | .tmPush _ _ _ | .tmSetContrast _ | .tmSetScrollMode _ => .ok

theorem commandStatus_eq_eprecond_iff {i : Instr} :
    commandStatus i = .eprecond ↔
      ∃ xpos ypos width height inv d, i = .fbBlit xpos ypos width height inv d ∧ width.toNat % 8 ≠ 0 := by
  cases i <;> simp [commandStatus]

theorem commandStatus_eq_ok_or_eprecond (i : Instr) : commandStatus i = .ok ∨ commandStatus i = .eprecond := by
  cases i with
  | fbBlit xpos ypos width height inv d => exact ite_eq_or_eq _ _ _
  | _ => exact .inl rfl

theorem commandStatus_ne_illegal (i : Instr) : commandStatus i ≠ .illegal := by
  obtain h | h := commandStatus_eq_ok_or_eprecond i <;> simp [h]

theorem commandStatus_ne_busfail (i : Instr) : commandStatus i ≠ .busfail := by
  obtain h | h := commandStatus_eq_ok_or_eprecond i <;> simp [h]

/-- What a well-formed command sends has its own status, if it sends something. -/
theorem exec_responses {i : Instr} {s : State} (hwf : i.wf s.pageCount = true) :
    ∃ t, exec i s = .next t ∧
      (t.responses = s.responses ∨ ∃ r, t.responses = s.responses ++ [r] ∧ r.status = commandStatus i) := by
  cases i with
  | fbGetPage page =>
    obtain ⟨data, -, h⟩ := execFbGetPage_answers page s
    exact ⟨_, h, .inr ⟨_, rfl, rfl⟩⟩
  | fbSetPage page d =>
    have hd : d.length = 128 := beq_iff_eq.mp hwf
    cases h : s.pageInBounds page
    · exact ⟨_, execFbSetPage_of_out hd h, .inr ⟨_, rfl, rfl⟩⟩
    · exact ⟨_, execFbSetPage_of_in hd h, .inr ⟨_, rfl, rfl⟩⟩
  | fbGetPixel x y inv =>
    cases h : s.pixelInBounds x.toNat y.toNat
    · exact ⟨_, execFbGetPixel_of_out inv h, .inr ⟨_, rfl, rfl⟩⟩
    · exact ⟨_, execFbGetPixel_of_in inv h, .inr ⟨_, rfl, rfl⟩⟩
  | fbSetPixel x y val inv => exact ⟨_, rfl, .inr ⟨_, rfl, rfl⟩⟩
  | fbBlit xpos ypos width height inv d =>
    have hd : d.length = blitPayloadBytes width height := beq_iff_eq.mp hwf
    by_cases h : width.toNat % 8 = 0
    · exact ⟨_, execFbBlit_of_fit hd h, .inr ⟨_, rfl, (if_pos h).symm⟩⟩
    · exact ⟨_, execFbBlit_of_misfit hd h, .inr ⟨_, rfl, (if_neg h).symm⟩⟩
  | fbGetBuffer => exact ⟨_, execFbGetBuffer_eq s, .inr ⟨_, rfl, rfl⟩⟩
  | fbSetBuffer d => exact ⟨_, execFbSetBuffer_of_length (beq_iff_eq.mp hwf), .inr ⟨_, rfl, rfl⟩⟩
  | tmPush page col count =>
    cases h : s.pushSends page col count
    · exact ⟨_, execTmPush_of_not_sends h, .inr ⟨_, rfl, rfl⟩⟩
    · exact ⟨_, execTmPush_of_sends h, .inl rfl⟩
  | tmSetContrast level => exact ⟨_, rfl, .inl rfl⟩
  | tmSetScrollMode selector => exact ⟨_, rfl, .inl rfl⟩

theorem exec_status {i : Instr} {s t : State} {r : Response} (h : exec i s = .next t)
    (hr : t.responses = s.responses ++ [r]) : r.status = commandStatus i := by
  obtain ⟨u, hu, hsent⟩ := exec_responses (effect_of_exec h).1
  obtain rfl : u = t := Host.Outcome.next.inj (hu.symm.trans h)
  rw [hr] at hsent
  obtain hnone | ⟨r', hr', hstatus⟩ := hsent
  · simp at hnone
  · obtain rfl : r = r' := by simpa using hr'
    exact hstatus

/-- EPRECOND comes with no other change. -/
theorem Effect.eq_answer_of_eprecond {i : Instr} {s t : State} {r : Response} (h : Effect i s t)
    (hr : t.responses = s.responses ++ [r]) (hstatus : r.status = .eprecond) : t = s.answer r := by
  cases h with
  | answered r' =>
    obtain rfl : r' = r := by simpa using hr
    rfl
  | stored fb =>
    obtain rfl : _ = r := by simpa using hr
    cases hstatus
  | emitted txn => simp at hr

/-- Where a response comes from: the backing's reply, a reserved encoding, or a command's own answer. -/
theorem step_response {s t : State} {r : Response} (hr : s.resetRequest = none) (h : step s = .next t)
    (hresp : t.responses = s.responses ++ [r]) :
    (∃ bk txn o, s.tmPhase = .pending bk txn ∧ r.status = (if o = .ack then .ok else .busfail) ∧
        t = ((s.record bk txn o).setPhase .idle).answer r) ∨
      (s.tmPhase = .idle ∧ ∃ n, s.fetch = .illegal n ∧ r.status = .illegal ∧ t = (s.consume n).answer r) ∨
      (s.tmPhase = .idle ∧ ∃ i n, s.fetch = .command i n ∧ r.status = commandStatus i ∧
        (r.status = .eprecond → t = (s.consume n).answer r)) := by
  obtain ⟨-, ⟨bk, txn, hp, rfl⟩ | ⟨hidle, ⟨i, n, hf, hx⟩ | ⟨n, hf, rfl⟩ | ⟨hf, rfl⟩⟩⟩ := step_cases hr h
  · obtain ⟨o, ho⟩ := s.backingReturns_cases bk txn
    rw [ho] at hresp ⊢
    obtain rfl : _ = r := by simpa using hresp
    exact .inl ⟨bk, txn, o, hp, rfl, rfl⟩
  · exact .inr (.inr ⟨hidle, i, n, hf, exec_status hx hresp, (effect_of_exec hx).2.eq_answer_of_eprecond hresp⟩)
  · obtain rfl : _ = r := by simpa using hresp
    exact .inr (.inl ⟨hidle, n, hf, rfl, rfl⟩)
  · simp at hresp

/-- Settles O43: by where the response comes from. -/
theorem errorsArePrecise : Obligations.ErrorsArePrecise := by
  intro s t r hr h hresp
  obtain ⟨bk, txn, o, hp, hstatus, rfl⟩ | ⟨hidle, n, -, hstatus, rfl⟩ | ⟨hidle, i, n, -, hstatus, hsame⟩ :=
    step_response hr h hresp
  · refine ⟨fun herror => ?_, fun _ => ⟨bk, txn, hp⟩, fun bk' txn' hp' => ?_⟩
    · cases o <;> simp [hstatus] at herror
    · obtain ⟨rfl, rfl⟩ := TmPhase.pending.inj (hp.symm.trans hp')
      exact ⟨o, s.draws + 1, by cases o <;> simp [hstatus], rfl⟩
  · refine ⟨fun _ => ⟨n, rfl⟩, fun hbusfail => ?_, fun bk txn hp => ?_⟩
    · rw [hstatus] at hbusfail; cases hbusfail
    · rw [hidle] at hp; cases hp
  · refine ⟨fun herror => ?_, fun hbusfail => ?_, fun bk txn hp => ?_⟩
    · obtain hillegal | heprecond := herror
      · exact absurd (hstatus.symm.trans hillegal) (commandStatus_ne_illegal i)
      · exact ⟨n, hsame heprecond⟩
    · exact absurd (hstatus.symm.trans hbusfail) (commandStatus_ne_busfail i)
    · rw [hidle] at hp; cases hp

/-- Settles O44: by where the response comes from; a command's own status is `commandStatus`. -/
theorem statusesHaveTheirCauses : Obligations.StatusesHaveTheirCauses := by
  intro s t r hr h hresp
  obtain ⟨bk, txn, o, hp, hstatus, rfl⟩ | ⟨hidle, n, hf, hstatus, -⟩ | ⟨hidle, i, n, hf, hstatus, -⟩ :=
    step_response hr h hresp
  · cases o <;> simp [hp, hstatus]
  · simp [hidle, hf, hstatus]
  · rw [hstatus, commandStatus_eq_eprecond_iff]
    simp [hidle, hf, commandStatus_ne_illegal, commandStatus_ne_busfail]

end Sys2Proof.Machine
end

section
/-! PROOFS. What every step keeps: the invariant of the state, and that there is a next state at all
(spec/10_state.md, spec/60_exceptions.md R175). -/

namespace Sys2Proof.Machine

/-! ## Construction (R180) -/

/-- A constructed state has an empty buffer and empty records, under legal registers. -/
theorem State.inv_constructed {a : ConstructionArgs} (h : a.legal = true) : (State.constructed a).Inv where
  legal := ConfigRegs.legal_sampled h
  fbWf := Memory.wf_nil
  fbBelow := by simp [Memory.below]
  histTo := by simp
  pendingTo := by simp
  responses := by simp
  received := Nat.le_refl 0

/-- Settles O48: construction gives `State.constructed` of legal arguments, and `State.reset` is such a state. -/
theorem constructionMeetsTheInvariant : Obligations.ConstructionMeetsTheInvariant := by
  refine ⟨fun a t h => ?_, State.inv_constructed (by decide)⟩
  rw [construct_eq_next h]
  exact State.inv_constructed (legal_of_construct h)

theorem State.legal_of_reconstruct {s t : State} {a : ConstructionArgs} (h : s.reconstruct a = .next t) :
    a.legal = true := by
  by_contra hillegal
  rw [State.reconstruct, if_neg hillegal] at h
  cases h

/-- What a repeated reset leaves. -/
theorem State.reconstruct_eq_next {s t : State} {a : ConstructionArgs} (h : s.reconstruct a = .next t) :
    t = { State.constructed a with
      channel := s.channel, turns := s.turns, draws := s.draws, earlier := s.handedOver } := by
  rw [State.reconstruct_of_legal s (State.legal_of_reconstruct h)] at h
  exact (Host.Outcome.next.inj h).symm

/-! ## The invariant under each operation -/

section Inv

variable {s : State} (h : s.Inv)
include h

theorem State.Inv.consume (n : Nat) : (s.consume n).Inv :=
  ⟨h.legal, h.fbWf, h.fbBelow, h.histTo, h.pendingTo, h.responses, h.received⟩

theorem State.Inv.answer {r : Response} (hr : r.wf) : (s.answer r).Inv where
  legal := h.legal
  fbWf := h.fbWf
  fbBelow := h.fbBelow
  histTo := h.histTo
  pendingTo := h.pendingTo
  responses := List.forall_mem_append.mpr ⟨h.responses, List.forall_mem_singleton.mpr hr⟩
  received := h.received.trans (by simp)

theorem State.Inv.setFb {fb : Memory} (hwf : fb.wf) (hbelow : fb.below s.fbSize) : (s.setFb fb).Inv :=
  ⟨h.legal, hwf, hbelow, h.histTo, h.pendingTo, h.responses, h.received⟩

/-- A bounded transaction handed to the selected backing. -/
theorem State.Inv.emit {txn : Transaction} (hbounded : txn.bounded) : (s.emit txn).Inv where
  legal := h.legal
  fbWf := h.fbWf
  fbBelow := h.fbBelow
  histTo := h.histTo
  pendingTo := by
    intro bk txn' hp
    cases hp
    exact ⟨rfl, hbounded⟩
  responses := h.responses
  received := h.received

/-- The pending transaction recorded, which met the bound while it was pending. -/
theorem State.Inv.record {bk : Backing} {txn : Transaction} (hp : s.tmPhase = .pending bk txn) (o : TxnOutcome) :
    ((s.record bk txn o).setPhase .idle).Inv where
  legal := h.legal
  fbWf := h.fbWf
  fbBelow := h.fbBelow
  histTo := List.forall_mem_append.mpr ⟨h.histTo, List.forall_mem_singleton.mpr (h.pendingTo bk txn hp)⟩
  pendingTo := by simp
  responses := h.responses
  received := h.received

theorem State.Inv.ownerTurn : s.ownerTurn.Inv :=
  ⟨h.legal, h.fbWf, h.fbBelow, h.histTo, h.pendingTo, h.responses, Nat.le_refl _⟩

/-- Each of a command's three effects keeps it. -/
theorem Effect.inv {i : Instr} {t : State} (heffect : Effect i s t) : t.Inv := by
  cases heffect with
  | answered r _ hwf => exact h.answer hwf
  | stored fb _ hwf hbelow => exact (h.setFb (hwf h.fbWf) (hbelow h.fbBelow)).answer fun hok => absurd rfl hok
  | emitted txn _ hbounded => exact h.emit hbounded

end Inv

/-- Settles O49: every agent's step is made of operations that keep the invariant. -/
theorem stepKeepsTheInvariant : Obligations.StepKeepsTheInvariant := by
  intro s t hinv h
  cases hr : s.resetRequest with
  | some a =>
    rw [step_of_request hr] at h
    have hbase := State.inv_constructed (State.legal_of_reconstruct h)
    rw [State.reconstruct_eq_next h]
    exact ⟨hbase.legal, hbase.fbWf, hbase.fbBelow, hbase.histTo, hbase.pendingTo, hbase.responses, hbase.received⟩
  | none =>
    obtain ⟨-, ⟨bk, txn, hp, rfl⟩ | ⟨-, ⟨i, n, -, hx⟩ | ⟨n, -, rfl⟩ | ⟨-, rfl⟩⟩⟩ := step_cases hr h
    · exact (hinv.record hp _).answer fun _ => ⟨rfl, rfl⟩
    · exact (effect_of_exec hx).2.inv (hinv.consume n)
    · exact (hinv.consume n).answer fun _ => ⟨rfl, rfl⟩
    · exact hinv.ownerTurn

/-! ## Nothing is fatal (R175) -/

/-- With one owner and legal constructions every agent's step answers a next state. -/
theorem step_progress {s : State} (hl : s.cfg.legal = true) (ho : s.SingleOwner) (hreq : s.LegalRequest) :
    ∃ t, step s = .next t := by
  cases hr : s.resetRequest with
  | some a => exact ⟨_, (step_of_request hr).trans (State.reconstruct_of_legal s (hreq a hr))⟩
  | none =>
    cases hp : s.tmPhase with
    | pending bk txn => exact ⟨_, step_of_pending hr hl hp⟩
    | idle =>
      have hready : s.Ready := ⟨hr, hl, hp⟩
      cases hf : s.fetch with
      | command i n =>
        obtain ⟨t, ht, -⟩ := exec_effect (s := s.consume n) (wf_of_decode (State.fetch_command_inv hf).1)
        exact ⟨t, (step_of_command hready hf).trans ht⟩
      | illegal n => exact ⟨_, step_of_illegal hready hf⟩
      | awaiting => exact ⟨_, step_of_awaiting hready hf⟩
      | foreign => exact absurd hf (State.fetch_ne_foreign ho)

/-- Only the surrounding system asks for a construction. -/
theorem step_resetRequest {s t : State} (hr : s.resetRequest = none) (h : step s = .next t) :
    t.resetRequest = none := by
  obtain ⟨-, ⟨bk, txn, -, rfl⟩ | ⟨-, ⟨i, n, -, hx⟩ | ⟨n, -, rfl⟩ | ⟨-, rfl⟩⟩⟩ := step_cases hr h
  · exact hr
  · exact (effect_of_exec hx).2.outside_eq.2.1.trans hr
  · exact hr
  · exact hr

/-- Only the owner's words are put on the channel. -/
theorem step_singleOwner {s t : State} (hr : s.resetRequest = none) (ho : s.SingleOwner) (h : step s = .next t) :
    t.SingleOwner := by
  obtain ⟨-, -, hchannel⟩ | ⟨-, -, ws, hchannel, -⟩ := step_stream hr h
  · rwa [State.SingleOwner, hchannel]
  · rw [State.SingleOwner, hchannel, sentByOwner_append, sentByOwner_drop ho, sentByOwner_ownerWords, Bool.and_true]

/-- Settles O50: there is a next state; a construction leaves its premises, and every other step keeps them. -/
theorem nothingIsFatal : Obligations.NothingIsFatal := by
  intro s hl ho hreq
  obtain ⟨t, h⟩ := step_progress hl ho hreq
  refine ⟨t, h, ?_⟩
  cases hr : s.resetRequest with
  | some a =>
    rw [step_of_request hr] at h
    rw [State.reconstruct_eq_next h]
    exact ⟨ConfigRegs.legal_sampled (hreq a hr), ho, fun _ hnone => by cases hnone⟩
  | none =>
    refine ⟨(step_cfg hr h).symm ▸ hl, step_singleOwner hr ho h, fun a hsome => ?_⟩
    rw [step_resetRequest hr h] at hsome
    cases hsome

end Sys2Proof.Machine
end

section
/-! PROOFS. What is known of the panel (spec/20_memory.md R49, R50; spec/70_reset_and_hazards.md R186, R187). -/

namespace Sys2Proof

theorem Transaction.isScroll_iff {txn : Transaction} : txn.isScroll = true ↔ ∃ selector, txn = .scrollMode selector := by
  cases txn <;> simp [Transaction.isScroll]

end Sys2Proof

namespace Sys2Proof.Machine

/-! ## One more transaction -/

/-- A transaction handed over from Idle counts as failed until its outcome (log entry 22). -/
theorem State.panelByte_setPhase_pending {s : State} (hidle : s.tmPhase = .idle) (bk : Backing) (txn : Transaction)
    (a : Nat) : (s.setPhase (.pending bk txn)).panelByte a =
      (s.panelByte a).after a { backing := bk, txn := txn, outcome := .fail } := by
  rw [State.panelByte_of_pending (s.setPhase_tmPhase _), State.panelByte_of_idle hidle]
  rfl

/-- And with its outcome once it is completed, whether or not it was seen pending. -/
theorem State.panelByte_complete_of_idle {s : State} (hidle : s.tmPhase = .idle) (bk : Backing) (txn : Transaction)
    (o : TxnOutcome) (a : Nat) : (s.complete bk txn o).panelByte a =
      (s.panelByte a).after a { backing := bk, txn := txn, outcome := o } := by
  rw [State.panelByte_complete, State.panelByte_of_idle hidle]

theorem State.complete_setPhase (s : State) (p : TmPhase) (bk : Backing) (txn : Transaction) (o : TxnOutcome) :
    (s.setPhase p).complete bk txn o = s.complete bk txn o := rfl

/-- An acknowledged push makes its bytes known. -/
theorem PanelByte.after_acknowledged_push {page col : Byte} {bytes : List Byte} {k : Nat} (hk : k < bytes.length)
    {p : PanelByte} (hp : p ≠ .scrolling) (bk : Backing) :
    p.after (pageAddress page + col.toNat + k) { backing := bk, txn := .writeRegion page col bytes, outcome := .ack } =
      .known (bytes.getD k 0) := by
  rw [PanelByte.after_writeRegion hp, if_pos (by omega), Nat.add_sub_cancel_left]

theorem PanelByte.after_failed_push {page col : Byte} {bytes : List Byte} {k : Nat} (hk : k < bytes.length)
    {p : PanelByte} (hp : p ≠ .scrolling) (bk : Backing) :
    p.after (pageAddress page + col.toNat + k) { backing := bk, txn := .writeRegion page col bytes, outcome := .fail } =
      .unknown := by
  rw [PanelByte.after_writeRegion hp, if_pos (by omega)]

/-- Settles O52: the push is the next transaction in the view, pending and completed. -/
theorem acknowledgedPushMakesThePanelKnown : Obligations.AcknowledgedPushMakesThePanelKnown := by
  intro s page col count hr hpage hcol hcount
  have hsends : s.pushSends page col count = true := State.pushSends_iff.mpr ⟨hpage, hcol, hcount⟩
  refine ⟨_, _, execTmPush_of_sends hsends, rfl, ⟨_, step_setPhase_pending hr.noReset hr.legal⟩,
    fun k hk hscroll => ?region, fun a o houtside => ?outside⟩
  case region =>
    have hlen : k < (s.fb.readBytes (pageAddress page + col.toNat) (pushCount col count)).length := by
      rwa [Memory.length_readBytes]
    rw [State.emit_eq_setPhase, State.complete_setPhase, State.panelByte_complete_of_idle hr.idle,
      State.panelByte_setPhase_pending hr.idle]
    refine ⟨(PanelByte.after_acknowledged_push hlen hscroll _).trans ?_, PanelByte.after_failed_push hlen hscroll _⟩
    exact congrArg PanelByte.known (Memory.getD_readBytes _ _ hk)
  case outside =>
    have hregion : a < pageAddress page + col.toNat ∨ pageAddress page + col.toNat +
        (s.fb.readBytes (pageAddress page + col.toNat) (pushCount col count)).length ≤ a := by
      rwa [Memory.length_readBytes]
    rw [State.emit_eq_setPhase, State.complete_setPhase, State.panelByte_complete_of_idle hr.idle,
      State.panelByte_setPhase_pending hr.idle]
    exact ⟨PanelByte.after_writeRegion_outside hregion _ _ _, PanelByte.after_writeRegion_outside hregion _ _ _⟩

/-! ## Scroll commands are never forgotten (R186, R187) -/

/-- No effect of a command takes back a transaction that was handed over before. -/
theorem Effect.handedOver_subset {i : Instr} {s t : State} (hidle : s.tmPhase = .idle) (h : Effect i s t) :
    s.handedOver ⊆ t.handedOver := by
  cases h with
  | answered r => exact List.Subset.refl _
  | stored fb => exact List.Subset.refl _
  | emitted txn => simp [State.handedOver, hidle]

/-- No step takes back a transaction: a completion adds its outcome, and a construction keeps the record. -/
theorem step_keeps_handedOver {s t : State} (h : step s = .next t) :
    s.handedOver.map PastEntry.txn ⊆ t.handedOver.map PastEntry.txn := by
  cases hr : s.resetRequest with
  | some a =>
    rw [step_of_request hr] at h
    rw [State.reconstruct_eq_next h]
    simp [State.handedOver]
  | none =>
    obtain ⟨-, ⟨bk, txn, hp, rfl⟩ | ⟨hidle, ⟨i, n, -, hx⟩ | ⟨n, -, rfl⟩ | ⟨-, rfl⟩⟩⟩ := step_cases hr h
    · simp [State.handedOver, hp, HistEntry.past]
    · exact List.map_subset _ (Effect.handedOver_subset (s := s.consume n) hidle (effect_of_exec hx).2)
    · exact List.Subset.refl _
    · exact List.Subset.refl _

/-- The panel goes on counting as scrolling. -/
theorem step_panelByte_scrolling {s t : State} {a : Nat} (hs : s.panelByte a = .scrolling) (h : step s = .next t) :
    t.panelByte a = .scrolling := by
  obtain ⟨e, he, hscroll⟩ := (State.panelByte_eq_scrolling_iff s a).mp hs
  obtain ⟨e', he', htxn⟩ := List.mem_map.mp (step_keeps_handedOver h (List.mem_map_of_mem he))
  exact (State.panelByte_eq_scrolling_iff t a).mpr ⟨e', he', htxn ▸ hscroll⟩

/-- Without a scroll command in the record, the history or the phase the panel does not count as scrolling. -/
theorem State.panelByte_ne_scrolling {s : State} (a : Nat)
    (hearlier : ∀ e ∈ s.earlier, ∀ selector, e.txn ≠ .scrollMode selector)
    (hhist : ∀ e ∈ s.hist, ∀ selector, e.txn ≠ .scrollMode selector)
    (hpending : ∀ bk selector, s.tmPhase ≠ .pending bk (.scrollMode selector)) : s.panelByte a ≠ .scrolling := by
  rw [Ne, State.panelByte_eq_scrolling_iff]
  rintro ⟨e, he, hscroll⟩
  obtain ⟨selector, htxn⟩ := Transaction.isScroll_iff.mp hscroll
  simp only [State.handedOver, List.mem_append, List.mem_map] at he
  obtain (he | ⟨e', he', rfl⟩) | he := he
  · exact hearlier e he selector htxn
  · exact hhist e' he' selector htxn
  · cases hp : s.tmPhase with
    | idle => simp [hp] at he
    | pending bk txn =>
      obtain rfl : e = ⟨bk, txn, none⟩ := by simpa [hp] using he
      exact hpending bk selector (htxn ▸ hp)

/-- Settles O53: clause by clause, one transaction's effect on the view or the record of those handed over. -/
theorem failureAndScrollMakeThePanelUnknown : Obligations.FailureAndScrollMakeThePanelUnknown := by
  refine ⟨fun s bk page col bytes a b hp hmin hmax => ?failed, fun s t bk page col bytes k hidle ht hk hscroll => ?again,
    fun s bk selector o a hp => ?scroll, fun s t a hs h => step_panelByte_scrolling hs h,
    fun s a hearlier hhist hpending => State.panelByte_ne_scrolling a hearlier hhist hpending⟩
  case failed =>
    rw [State.panelByte_of_pending hp, State.panelByte_complete]
    exact ⟨PanelByte.after_failed_push_ne_known ⟨hmin, hmax⟩ _ _ _,
      PanelByte.after_failed_push_ne_known ⟨hmin, hmax⟩ _ _ _⟩
  case again =>
    subst ht
    rw [State.panelByte_complete_of_idle rfl, State.panelByte_complete_of_idle hidle]
    exact PanelByte.after_acknowledged_push hk ((PanelByte.after_failed_push hk hscroll bk).trans_ne (by simp)) bk
  case scroll =>
    rw [State.panelByte_of_pending hp, State.panelByte_complete]
    exact ⟨PanelByte.after_scrollMode _ _ _ _ _, PanelByte.after_scrollMode _ _ _ _ _⟩

end Sys2Proof.Machine
end
